-- ==== Sys2Proof/Word.lean ====
section
/-! DEFINITION. The word and byte types of the engine (spec 00_scope.md R5, R8). -/

namespace Sys2Proof

/-- R5, R8: a word (lane) is 64 bits. -/
abbrev Word := BitVec 64

/-- R10: an 8-bit value of a byte sequence. -/
abbrev Byte := BitVec 8

/-- R8: `ones64`. -/
def ones64 : Word := 0xFFFF_FFFF_FFFF_FFFF

end Sys2Proof
end

