-- ==== Sys2Proof/Syntax.lean ====
section
/-! DEFINITION. The commands of the engine: one constructor per row of spec/opcode_table.json. -/

namespace Sys2Proof

/-- The three commands (spec 30_encoding.md R73). The arguments are the 8-bit unsigned field ARG of
R71, R72. -/
inductive Instr where
  /-- `INIT` (R150). -/
  | init
  /-- `ABSORB len` (R151): append the first `len` bytes of DATA_IN. -/
  | absorb (len : BitVec 8)
  /-- `FINAL outlen` (R152): finish the digest into a caller buffer of `outlen` bytes. -/
  | final (outlen : BitVec 8)
  deriving DecidableEq, Repr

end Sys2Proof
end

