-- ==== Sys2Proof/WellFormed.lean ====
section
/-! DEFINITION. Which instruction terms stand for a legal command word (spec 30_encoding.md R72, R74). -/

namespace Sys2Proof

/-- R74(d): ABSORB's LEN is at most 8. INIT has no operand and FINAL takes any OUTLEN 0..255 (R72). -/
def Instr.wellFormed : Instr → Bool
  | .init => true
  | .absorb len => decide (len.toNat ≤ 8)
  | .final _ => true

end Sys2Proof
end

