-- ==== Sys2Proof/Decode.lean ====
section
/-! DEFINITION. Command words to instructions, total on every 64-bit word (spec 30_encoding.md R71, R74,
R75), and the encoder (R73). A command is one 64-bit word written to CMD, never a byte sequence fetched
from memory (R65, R70), so the decoder's input is the word. -/

namespace Sys2Proof

/-- R71: OPC = w[7:0]. -/
def opcField (w : Word) : BitVec 8 := w.extractLsb' 0 8

/-- R71: ARG = w[15:8]. -/
def argField (w : Word) : BitVec 8 := w.extractLsb' 8 8

/-- R71: RSV = w[63:16]. -/
def rsvField (w : Word) : BitVec 48 := w.extractLsb' 16 48

/-- Why a word is illegal (R74: "a reserved OPC, nonzero RSV, INIT with ARG ≠ 0, or ABSORB with LEN
9..255"). -/
inductive IllegalWord where
  | reservedBits
  | reservedOpcode
  | initArgument
  | absorbLength
  deriving DecidableEq, Repr

/-- R75. -/
def decode (w : Word) : Except IllegalWord Instr :=
  if rsvField w ≠ 0 then .error .reservedBits
  else if opcField w = 0x01 then
    if argField w = 0 then .ok .init else .error .initArgument
  else if opcField w = 0x02 then
    if (argField w).toNat ≤ 8 then .ok (.absorb (argField w)) else .error .absorbLength
  else if opcField w = 0x03 then .ok (.final (argField w))
  else .error .reservedOpcode

/-- The instruction of a word whose bits are `w`, of which the opcode table gives `nbits`; every bit
above is 0. The table's one format is the whole 64-bit word. -/
def decodeTableWord (nbits w : Nat) : Option Instr :=
  match decode (BitVec.ofNat 64 (w % 2 ^ nbits)) with
  | .ok i => some i
  | .error _ => none

/-- R71, R73: a word from its OPC and ARG fields, RSV = 0: `OPC | (ARG << 8)`. -/
def commandWord (opc arg : BitVec 8) : Word := opc.setWidth 64 ||| (arg.setWidth 64 <<< 8)

/-- R73: the command word of an instruction. -/
def encode : Instr → Word
  | .init => commandWord 0x01 0
  | .absorb len => commandWord 0x02 len
  | .final outlen => commandWord 0x03 outlen

end Sys2Proof
end

