-- ==== Sys2Proof/Config.lean ====
section
/-! DEFINITION. What one implementation fixes (the named parameters of spec 00_scope.md R6, R7) and the
values the spec leaves free. -/

namespace Sys2Proof

/-- R7: the two values of `LAST_NODE_MODE`, the value F1 takes at finalization. -/
inductive LastNodeMode where
  /-- F1 stays 0 (the spec's default). -/
  | standard
  /-- F1 becomes all-ones. -/
  | docLiteral
  deriving DecidableEq, Repr

/-- The implementation's parameters, "which the model takes as an argument" (R6, R7). A state carries
them and no step writes them (DESIGN CHOICE, safe: log 1). -/
structure Params where
  /-- Which 256-byte slot of the host's address space the register window is: `BASE / 256` (R6). -/
  windowIndex : Nat
  /-- `LAST_NODE_MODE` (R7). -/
  lastNodeMode : LastNodeMode
  /-- MODEL'S OWN: which engine this is among several (60_exceptions.md R190). Only the free values depend on
  it, so that two engines draw independently; no access can read it (the spec gives no identifier register).
  DESIGN CHOICE, safe: log 14. -/
  engineNumber : Nat
  deriving DecidableEq, Repr

/-- R6: `BASE`, a multiple of 256. -/
def Params.base (p : Params) : Nat := 256 * p.windowIndex

/-! The free values take the number of the engine that draws and the number of its draw: two engines share
none of them (60_exceptions.md R190, log 14). -/

/-- FREE VALUE (R213, R216): how many steps the command that engine `e` accepts at its draw `n` stays in
progress before it completes: "a finite, unspecified time". DESIGN CHOICE of form, safe: log 3. -/
opaque Config.latency (e n : Nat) : Nat

/-- FREE VALUE (R213(c)): bits 63:1 of the STATUS read engine `e` performs at its draw `n` while BUSY = 1 ("bits 63:1
may read any value. A model draws them freely"). Safe: log 4. -/
opaque Config.statusWhileBusy (e n : Nat) : BitVec 63

/-- FREE VALUE: whether the accesses engine `e` holds when reset is asserted at its draw `n` are dropped (true)
or stay held. The spec does not say. DESIGN CHOICE, unsafe: log 6. -/
opaque Config.dropsHeld (e n : Nat) : Bool

end Sys2Proof
end

