-- ==== Sys2Proof/Machine/Bytes.lean ====
section
/-! DEFINITION. Rotation, byte fields and byte order (spec 00_scope.md R8, R9, R10). -/

namespace Sys2Proof.Machine

/-- R9: `rotr(x, n) = (x >> n) | (x << (64 - n))`, for 0 < n < 64. -/
def rotr (x : Word) (n : Nat) : Word := (x >>> n) ||| (x <<< (64 - n))

/-- R8: byte k of a word is `w[8k+7:8k]`. -/
def byteOf (w : Word) (k : Nat) : Byte := w.extractLsb' (8 * k) 8

/-- The word whose byte i is the i-th byte of the list (bytes past the list's end are 0). -/
def wordOfBytes (bytes : List Byte) : Word :=
  bytes.foldr (fun b acc => (acc <<< 8) ||| b.setWidth 64) 0

/-- R10: `load64le(b, k)`, the word whose byte i is `b[k+i]`. -/
def load64le (b : List Byte) (k : Nat) : Word := wordOfBytes ((b.drop k).take 8)

/-- R10: `store64le(w) = w[7:0], w[15:8], ..., w[63:56]`. -/
def store64le (w : Word) : List Byte := (List.range 8).map (byteOf w)

end Sys2Proof.Machine
end

