-- ==== Sys2Proof/Machine/ParamInit.lean ====
section
/-! DEFINITION. The Parameter Block Builder and the constants of state initialization (spec
40_param_init.md R90 to R95). The values the spec marks as general knowledge are checked by the spec
against an independent implementation (TESTED, safe: log 9). -/

namespace Sys2Proof.Machine

/-- R25, R90: the digest length, the parameter block's first byte. -/
abbrev digestLength : Nat := 32

/-- R90, R91: ASCII `ckb-default-hash`. -/
def personalization : List Byte :=
  [0x63, 0x6b, 0x62, 0x2d, 0x64, 0x65, 0x66, 0x61, 0x75, 0x6c, 0x74, 0x2d, 0x68, 0x61, 0x73, 0x68]

/-- R90: the 64 parameter bytes, field by field in the order of the rule's table. -/
def parameterBlock : List Byte :=
  [BitVec.ofNat 8 digestLength]   -- digest_length
  ++ [0]                          -- key_length
  ++ [1]                          -- fanout
  ++ [1]                          -- depth
  ++ List.replicate 4 0           -- leaf_length
  ++ List.replicate 8 0           -- node_offset
  ++ [0]                          -- node_depth
  ++ [0]                          -- inner_length
  ++ List.replicate 14 0          -- reserved
  ++ List.replicate 16 0          -- salt
  ++ personalization

/-- R92: `PW[i] = load64le(P, 8·i)`. -/
def parameterWords : Vector Word 8 := Vector.ofFn fun i => load64le parameterBlock (8 * i)

/-- R94: the initialization vector. -/
def iv : Vector Word 8 := #v[
  0x6a09_e667_f3bc_c908,
  0xbb67_ae85_84ca_a73b,
  0x3c6e_f372_fe94_f82b,
  0xa54f_f53a_5f1d_36f1,
  0x510e_527f_ade6_82d1,
  0x9b05_688c_2b3e_6c1f,
  0x1f83_d9ab_fb41_bd6b,
  0x5be0_cd19_137e_2179]

/-- R95: `HINIT[i] = IV[i] ^ PW[i]`. -/
def hInit : Vector Word 8 := Vector.ofFn fun i => iv[i] ^^^ parameterWords[i]

end Sys2Proof.Machine
end

