-- ==== Sys2Proof/Machine/State.lean ====
section
/-! DEFINITION. Everything the spec gives the machine to hold (spec 10_state.md), the host port's
queue, and the reasons a run stops. -/

namespace Sys2Proof.Machine

/-- BUF, the byte-addressed block buffer (spec 20_memory.md R50(2)): the listed (index, byte) cells. An
index that is not listed reads as 0, the reset contents R41 gives. DESIGN CHOICE of form, safe: log 8. -/
abbrev Memory := List Host.Cell

/-- The canonical form: indices strictly rising, all inside BUF (R50: 0..127), and no cell listed with
the value an unlisted index reads as. -/
abbrev Memory.wf (m : Memory) : Prop :=
  m.Pairwise (fun c d => c.1 < d.1) ∧ ∀ c ∈ m, c.1 < 128 ∧ c.2 ≠ 0

/-- The hash state of one engine instance (10_state.md R20). -/
structure HashState where
  /-- Chaining value `H[0..7]` (R21). -/
  h : Vector Word 8
  /-- Low word of the byte counter (R22). -/
  t0 : Word
  /-- High word of the byte counter (R22). -/
  t1 : Word
  /-- Last-block flag (R23). -/
  f0 : Word
  /-- Last-node flag (R23). -/
  f1 : Word
  /-- Block buffer (R24). -/
  buf : Memory
  /-- BUFLEN, 0..128 (R20, R24). -/
  bufLen : Fin 129
  deriving DecidableEq, Repr

/-- The values state initialization loads (40_param_init.md R96). -/
def HashState.initial : HashState where
  h := hInit
  t0 := 0
  t1 := 0
  f0 := 0
  f1 := 0
  buf := []
  bufLen := 0

/-- The codes of STATUS.ERR that are ever held (10_state.md R33, 60_exceptions.md R181; codes 4..15 are
never produced). -/
inductive ErrCode where
  | ok
  | invalidOutputBuffer
  | alreadyFinalized
  | illegalCmd
  deriving DecidableEq, Repr

/-- What a bus access does. -/
inductive BusOp where
  | read
  | write (v : Word)
  deriving DecidableEq, Repr

/-- One access a host presents on the port (00_scope.md R12, 20_memory.md R50, R52): any byte address of
the host's space, any width in bytes. -/
structure BusAccess where
  addr : Nat
  size : Nat
  op : BusOp
  deriving DecidableEq, Repr

/-- How the port completes an access without error (20_memory.md R50, "completion with read data"). -/
inductive Response where
  /-- A completed write. -/
  | written
  /-- A completed read, with its data. -/
  | data (v : Word)
  deriving DecidableEq, Repr

/-- The machine's state. -/
structure State where
  /-- The implementation's parameters (00_scope.md R6, R7) and the engine's number (log 14); no step writes
  them. -/
  params : Params
  /-- The hash state (10_state.md R20). -/
  hash : HashState
  /-- STATUS.ERR (R33). -/
  err : ErrCode
  /-- DATA_IN (R35). -/
  dataIn : Word
  /-- DIGEST0..DIGEST3 (R36). -/
  digest : Vector Word 4
  /-- The pending command (R40); STATUS.BUSY is 1 iff there is one (R31). -/
  pending : Option Word
  /-- The reset input's level (70_reset_and_hazards.md R210): true while asserted. -/
  resetIn : Bool
  /-- MODEL'S OWN: steps before the pending command may complete (R213, R216). Log 3. -/
  busyLeft : Nat
  /-- MODEL'S OWN: how many free values have been drawn. Log 4. -/
  draws : Nat
  /-- MODEL'S OWN: accesses the port has received and not performed, oldest first (20_memory.md R61).
  Log 2. -/
  port : List BusAccess
  /-- MODEL'S OWN: the port's responses so far, newest first. Log 2. -/
  responses : List Response
  deriving DecidableEq, Repr

/-- Why a run stops with a fault. -/
inductive Fault where
  /-- Raised by performing a bus access that is not an aligned 64-bit access inside the window: "a fault
  of the issuing host agent: recorded, never cleared" (20_memory.md R52, 60_exceptions.md R185, U6).
  Safe: the spec names it. -/
  | busError (a : BusAccess)
  deriving DecidableEq, Repr

/-- Why the model gives a step no meaning. -/
inductive Refusal where
  /-- Raised by exec's arm of an instruction that has no meaning yet. Safe. No arm uses it now. -/
  | notModelled (mnemonic : String)
  /-- Raised by presenting an access while reset is asserted: "outside the model"
  (70_reset_and_hazards.md R210, U7 `refuse`). Safe. -/
  | accessDuringReset (a : BusAccess)
  deriving DecidableEq, Repr

/-- The machine right after reset (10_state.md R41). Reset has been released, no access waits and the
model's own counters are 0 (DESIGN CHOICE: log 2, 3, 4, 5); the parameters are BASE = 0 (DESIGN CHOICE:
log 1), the spec's default LAST_NODE_MODE (R7) and engine number 0 (DESIGN CHOICE: log 14). -/
def State.reset : State where
  params := { windowIndex := 0, lastNodeMode := .standard, engineNumber := 0 }
  hash := HashState.initial
  err := .ok
  dataIn := 0
  digest := Vector.replicate 4 0
  pending := none
  resetIn := false
  busyLeft := 0
  draws := 0
  port := []
  responses := []

end Sys2Proof.Machine
end

