-- ==== Sys2Proof/Machine/Ops.lean ====
section
/-! DEFINITION. The named operations over the block buffer and over the machine's registers: the buffer
primitives (spec 20_memory.md R58), command completion (42_streaming.md R153) and raising an error
(00_scope.md R11), which is this machine's only "exception". -/

namespace Sys2Proof.Machine

/-- R41: what a byte of BUF that nothing has written since reset reads as. -/
def Memory.unlisted : Byte := 0

/-- The byte at index `a`. -/
def Memory.read (a : Nat) : Memory → Byte
  | [] => Memory.unlisted
  | (k, v) :: m => if k = a then v else Memory.read a m

/-- R58: `BufWrite(a, b)`, keeping the canonical form. -/
def Memory.write (a : Nat) (b : Byte) : Memory → Memory
  | [] => if b = Memory.unlisted then [] else [(a, b)]
  | (k, v) :: m =>
    if a < k then if b = Memory.unlisted then (k, v) :: m else (a, b) :: (k, v) :: m
    else if a = k then if b = Memory.unlisted then m else (a, b) :: m
    else (k, v) :: Memory.write a b m

/-- `for j: BufWrite(a + j, data[j])`, in order (R59). -/
def bufWriteAll (a : Nat) : List Byte → Memory → Memory
  | [], m => m
  | b :: data, m => bufWriteAll (a + 1) data (Memory.write a b m)

/-- R5, R58: BUF's size. -/
abbrev blockBytes : Nat := 128

/-- R58: `BufBlock()`, the 128 bytes of BUF. -/
def bufBlock (m : Memory) : List Byte := (List.range blockBytes).map fun j => Memory.read j m

/-- R58: `BufPad(k)`: `BUF[j] <- 0` for k ≤ j < 128. -/
def bufPad (k : Nat) (m : Memory) : Memory := bufWriteAll k (List.replicate (blockBytes - k) 0) m

/-- R153: the common completion of a command with result code `code`: STATUS.ERR is written and BUSY
becomes 0. -/
def complete (code : ErrCode) (s : State) : State :=
  { s with err := code, pending := none, busyLeft := 0 }

/-- R11, R180: `raise Error(code)`: STATUS.ERR takes the code, no other state is written, the command
ends. "It is not a trap": there is no handler, and the code stays until the next command completes
(R184), which is the only "return". -/
def raiseError (code : ErrCode) (s : State) : State := complete code s

/-- R96: `InitState()`, on the machine's hash state; it writes nothing else. -/
def initState (s : State) : State := { s with hash := HashState.initial }

end Sys2Proof.Machine
end

