-- ==== Sys2Proof/Machine/Operands.lean ====
section
/-! DEFINITION. The operands of the commands: the ARG field (spec 30_encoding.md R72) and the operand
bytes of DATA_IN (10_state.md R35, 42_streaming.md R151). -/

namespace Sys2Proof.Machine

/-- R72: an 8-bit argument, zero-extended and unscaled, as a count of bytes. -/
def argCount (arg : BitVec 8) : Nat := arg.toNat

/-- R35: operand byte k is `DATA_IN[8k+7:8k]`. -/
def operandByte (dataIn : Word) (k : Nat) : Byte := byteOf dataIn k

/-- R151: `[d[0], ..., d[LEN-1]]`; the bytes k ≥ LEN are ignored. -/
def operandBytes (len : BitVec 8) (dataIn : Word) : List Byte :=
  (List.range (argCount len)).map (operandByte dataIn)

end Sys2Proof.Machine
end

