-- ==== Sys2Proof/Machine/Compression.lean ====
section
/-! DEFINITION. The compression function (spec 41_compression.md). The working vector, the message words
and the round index are local values here (10_state.md R39). -/

namespace Sys2Proof.Machine

/-- R111: `m[i] = load64le(block, 8·i)`. The block is 128 bytes. -/
def messageWords (block : List Byte) : Vector Word 16 :=
  Vector.ofFn fun i => load64le block (8 * i)

/-- R112: `InitWork`. -/
def initWork (h : Vector Word 8) (t0 t1 f0 f1 : Word) : Vector Word 16 := #v[
  h[0], h[1], h[2], h[3], h[4], h[5], h[6], h[7],
  iv[0], iv[1], iv[2], iv[3], iv[4] ^^^ t0, iv[5] ^^^ t1, iv[6] ^^^ f0, iv[7] ^^^ f1]

/-- R113: the mixing function G. -/
def g (a b c d x y : Word) : Word × Word × Word × Word :=
  let a := a + b + x
  let d := rotr (d ^^^ a) 32
  let c := c + d
  let b := rotr (b ^^^ c) 24
  let a := a + b + y
  let d := rotr (d ^^^ a) 16
  let c := c + d
  let b := rotr (b ^^^ c) 63
  (a, b, c, d)

/-- R115: one application of G, its four results written back to the positions it read. -/
def mix (v : Vector Word 16) (i j k l : Fin 16) (x y : Word) : Vector Word 16 :=
  let r := g v[i] v[j] v[k] v[l] x y
  (((v.set i r.1).set j r.2.1).set k r.2.2.1).set l r.2.2.2

/-- R114: the sigma schedule (its remark "exactly twice" is not followed: DEDUCED, safe: log 13). -/
def sigma : Vector (Vector (Fin 16) 16) 10 := #v[
  #v[0, 1, 2, 3, 4, 5, 6, 7, 8, 9, 10, 11, 12, 13, 14, 15],
  #v[14, 10, 4, 8, 9, 15, 13, 6, 1, 12, 0, 2, 11, 7, 5, 3],
  #v[11, 8, 12, 0, 5, 2, 15, 13, 10, 14, 3, 6, 7, 1, 9, 4],
  #v[7, 9, 3, 1, 13, 12, 11, 14, 2, 6, 5, 10, 4, 0, 15, 8],
  #v[9, 0, 5, 7, 2, 4, 10, 15, 14, 1, 11, 12, 6, 8, 3, 13],
  #v[2, 12, 6, 10, 0, 11, 8, 3, 4, 13, 7, 5, 15, 14, 1, 9],
  #v[12, 5, 1, 15, 14, 13, 4, 10, 0, 7, 6, 3, 9, 2, 8, 11],
  #v[13, 11, 7, 14, 12, 1, 3, 9, 5, 0, 15, 4, 8, 6, 2, 10],
  #v[6, 15, 14, 9, 11, 3, 0, 8, 12, 2, 13, 7, 1, 4, 10, 5],
  #v[10, 2, 8, 4, 7, 6, 1, 5, 15, 11, 9, 14, 3, 12, 13, 0]]

/-- R114: round r uses row `r mod 10`. -/
def sigmaRow (r : Nat) : Vector (Fin 16) 16 := sigma[r % 10]'(Nat.mod_lt r (by decide))

/-- R115: the column step of a round whose sigma row is `s`. -/
def columnStep (m : Vector Word 16) (s : Vector (Fin 16) 16) (v : Vector Word 16) : Vector Word 16 :=
  let v := mix v 0 4 8 12 m[s[0]] m[s[1]]
  let v := mix v 1 5 9 13 m[s[2]] m[s[3]]
  let v := mix v 2 6 10 14 m[s[4]] m[s[5]]
  mix v 3 7 11 15 m[s[6]] m[s[7]]

/-- R115: the diagonal step of a round whose sigma row is `s`. -/
def diagonalStep (m : Vector Word 16) (s : Vector (Fin 16) 16) (v : Vector Word 16) : Vector Word 16 :=
  let v := mix v 0 5 10 15 m[s[8]] m[s[9]]
  let v := mix v 1 6 11 12 m[s[10]] m[s[11]]
  let v := mix v 2 7 8 13 m[s[12]] m[s[13]]
  mix v 3 4 9 14 m[s[14]] m[s[15]]

/-- R115: `Round(v, m, r)`, the column step before the diagonal step. -/
def mixRound (v m : Vector Word 16) (r : Nat) : Vector Word 16 :=
  diagonalStep m (sigmaRow r) (columnStep m (sigmaRow r) v)

/-- R116: a compression performs exactly 12 rounds. -/
abbrev roundCount : Nat := 12

/-- R116: the rounds r = 0, 1, ..., 11 in increasing order. -/
def allRounds (m v : Vector Word 16) : Vector Word 16 :=
  (List.range roundCount).foldl (fun v r => mixRound v m r) v

/-- R117: `H'[i] = H[i] ^ v[i] ^ v[i+8]`. -/
def compressOutput (h : Vector Word 8) (v : Vector Word 16) : Vector Word 8 :=
  Vector.ofFn fun i => h[i] ^^^ v[i.val] ^^^ v[i.val + 8]

/-- R110: `Compress`, a pure function of its arguments. -/
def compress (h : Vector Word 8) (t0 t1 f0 f1 : Word) (block : List Byte) : Vector Word 8 :=
  compressOutput h (allRounds (messageWords block) (initWork h t0 t1 f0 f1))

end Sys2Proof.Machine
end

