-- ==== Sys2Proof/Machine/Flags.lean ====
section
/-! DEFINITION. The finalization flags, the phase derived from them and the STATUS word (spec 10_state.md
R23, R26, R30 to R34). -/

namespace Sys2Proof.Machine

/-- R26: the three phases. -/
inductive Phase where
  | fresh
  | accum
  | final
  deriving DecidableEq, Repr

/-- R26: PHASE is derived from the hash state. -/
def phase (x : HashState) : Phase :=
  if x.f0 ≠ 0 then .final
  else if x.t0 = 0 ∧ x.t1 = 0 ∧ x.bufLen = 0 then .fresh
  else .accum

/-- R30: STATUS bits 2:1, "0 = FRESH, 1 = ACCUM, 2 = FINAL; 3 is never read". -/
def phaseBits : Phase → BitVec 2
  | .fresh => 0
  | .accum => 1
  | .final => 2

/-- R33, R181: STATUS bits 7:4. -/
def errBits : ErrCode → BitVec 4
  | .ok => 0
  | .invalidOutputBuffer => 1
  | .alreadyFinalized => 2
  | .illegalCmd => 3

/-- R30: the STATUS word from its fields, most significant first: reserved 63:16, BUFLEN 15:8, ERR 7:4,
reserved 3, PHASE 2:1, BUSY 0. -/
def packStatus (busy : Bool) (p : Phase) (e : ErrCode) (bufLen : Fin 129) : Word :=
  (0 : BitVec 48) ++ BitVec.ofNat 8 bufLen.val ++ errBits e ++ (0 : BitVec 1) ++ phaseBits p
    ++ BitVec.ofBool busy

/-- R31: BUSY is 1 from a CMD write's acceptance until that command completes. -/
def busy (s : State) : Bool := s.pending.isSome

/-- R30: what STATUS holds; read by the host only while BUSY = 0 (R213(c)). -/
def statusWord (s : State) : Word := packStatus (busy s) (phase s.hash) s.err s.hash.bufLen

/-- R213(c): what a STATUS read returns while BUSY = 1: bit 0 is 1 and bits 63:1 are the free value of
draw `n` of engine `e`. -/
def statusWhileBusy (e n : Nat) : Word := Config.statusWhileBusy e n ++ (1 : BitVec 1)

/-- R7, R23: the value F1 takes at finalization. -/
def lastNodeFlag : LastNodeMode → Word
  | .standard => 0
  | .docLiteral => ones64

/-- R146: "Finalized" means `F0 ≠ 0`. -/
def finalized (x : HashState) : Bool := x.f0 != 0

end Sys2Proof.Machine
end

