-- ==== Sys2Proof/Machine/Streaming.lean ====
section
/-! DEFINITION. The streaming engine's abstract operations (spec 42_streaming.md R140, R141, R145). -/

namespace Sys2Proof.Machine

/-- R140: `IncrementCounter(x)`; the carry compares the new T0 with x. -/
def incrementCounter (x : Nat) (s : HashState) : HashState :=
  let t0 := s.t0 + BitVec.ofNat 64 x
  { s with t0 := t0, t1 := if t0 < BitVec.ofNat 64 x then s.t1 + 1 else s.t1 }

/-- `H <- Compress(H, T0, T1, F0, F1, block)` (R110, R118: nothing else is written). -/
def compressBlock (block : List Byte) (s : HashState) : HashState :=
  { s with h := compress s.h s.t0 s.t1 s.f0 s.f1 block }

/-- R141: count one whole block and compress it. -/
def absorbBlock (block : List Byte) (s : HashState) : HashState :=
  compressBlock block (incrementCounter blockBytes s)

/-- R141: the loop `while L > 128`, with the bytes that remain after it. `fuel` bounds the number of
iterations; the length of the data is always enough. -/
def absorbWhole : Nat → List Byte → HashState → List Byte × HashState
  | 0, data, s => (data, s)
  | fuel + 1, data, s =>
    if data.length > blockBytes then
      absorbWhole fuel (data.drop blockBytes) (absorbBlock (data.take blockBytes) s)
    else (data, s)

/-- R141: the last two lines: copy the remaining bytes behind the valid ones and count them. The sum is
at most 128 at both uses. -/
def bufAppend (data : List Byte) (s : HashState) : HashState :=
  { s with
    buf := bufWriteAll s.bufLen data s.buf
    bufLen := Fin.ofNat 129 (s.bufLen + data.length) }

/-- R141: fill the buffer up to 128 bytes and set BUFLEN to 0. -/
def bufTopOff (data : List Byte) (s : HashState) : HashState :=
  { s with buf := bufWriteAll s.bufLen data s.buf, bufLen := 0 }

/-- R141: `Update(data)`. The comparisons are strict: a buffer that becomes exactly full is not
compressed. -/
def update (data : List Byte) (s : HashState) : HashState :=
  if data.length = 0 then s
  else
    let fill := blockBytes - s.bufLen
    if data.length > fill then
      let s := bufTopOff (data.take fill) s
      let s := absorbBlock (bufBlock s.buf) s
      let rest := data.drop fill
      let (rest, s) := absorbWhole rest.length rest s
      bufAppend rest s
    else bufAppend data s

/-- R145: `Finalize` past its two checks: count the buffered bytes, set the flags, zero-pad, compress.
BUFLEN is not changed. -/
def finalize (mode : LastNodeMode) (s : HashState) : HashState :=
  let s := incrementCounter s.bufLen s
  let s := { s with f0 := ones64, f1 := lastNodeFlag mode }
  let s := { s with buf := bufPad s.bufLen s.buf }
  compressBlock (bufBlock s.buf) s

/-- R145, R148: the words of a chaining value that make the digest, `H[k]` for k = 0..3. -/
def digestOfChain (h : Vector Word 8) : Vector Word 4 := Vector.ofFn fun k => h[k.val]

/-- R145: `DIGEST[k] <- H[k]` for k = 0..3. -/
def digestWords (s : HashState) : Vector Word 4 := digestOfChain s.h

/-- R148: the digest's 32 bytes. -/
def digestBytes (d : Vector Word 4) : List Byte := d.toList.flatMap store64le

/-- R149: the words of `Digest(b)`: `InitState(); Update(b); Finalize(32)`. -/
def digestOf (mode : LastNodeMode) (b : List Byte) : Vector Word 4 :=
  digestWords (finalize mode (update b HashState.initial))

end Sys2Proof.Machine
end

