-- ==== Sys2Proof/Machine/Commands.lean ====
section
/-! DEFINITION. The meanings of the three commands (spec 42_streaming.md R150 to R153). Each is one atomic
step and always ends in the completion of R153. -/

namespace Sys2Proof.Machine

/-- R150: `INIT`. -/
def execInit (s : State) : Host.Outcome State Fault Refusal :=
  .next (complete .ok (initState s))

/-- R151: `ABSORB len`, its errors in the priority of R182. The first check is for the words R74(d) makes
illegal; the decoder never hands them to this meaning (DESIGN CHOICE, safe: log 11). -/
def execAbsorb (len : BitVec 8) (s : State) : Host.Outcome State Fault Refusal :=
  if argCount len > 8 then .next (raiseError .illegalCmd s)
  else if finalized s.hash then .next (raiseError .alreadyFinalized s)
  else .next (complete .ok { s with hash := update (operandBytes len s.dataIn) s.hash })

/-- R145, R152: `FINAL outlen`, its errors in the priority of R182. -/
def execFinal (outlen : BitVec 8) (s : State) : Host.Outcome State Fault Refusal :=
  if argCount outlen < digestLength then .next (raiseError .invalidOutputBuffer s)
  else if finalized s.hash then .next (raiseError .alreadyFinalized s)
  else
    let x := finalize s.params.lastNodeMode s.hash
    .next (complete .ok { s with hash := x, digest := digestWords x })

end Sys2Proof.Machine
end

