-- ==== Sys2Proof/Machine/Window.lean ====
section
/-! DEFINITION. The host register window: which register an access reaches, what a read returns and what a
write does (spec 10_state.md R28 to R37, 20_memory.md R51 to R54). -/

namespace Sys2Proof.Machine

/-- R28: the host-visible registers; `reserved` is every offset R51 calls reserved. -/
inductive Reg where
  | cmd
  | status
  | dataIn
  | digest (k : Fin 4)
  | hview (i : Fin 8)
  | tview0
  | tview1
  | fview0
  | fview1
  | reserved
  deriving DecidableEq, Repr

/-- R51: the register map. -/
def regAt : Nat → Reg
  | 0x00 => .cmd
  | 0x08 => .status
  | 0x10 => .dataIn
  | 0x20 => .digest 0
  | 0x28 => .digest 1
  | 0x30 => .digest 2
  | 0x38 => .digest 3
  | 0x40 => .hview 0
  | 0x48 => .hview 1
  | 0x50 => .hview 2
  | 0x58 => .hview 3
  | 0x60 => .hview 4
  | 0x68 => .hview 5
  | 0x70 => .hview 6
  | 0x78 => .hview 7
  | 0x80 => .tview0
  | 0x88 => .tview1
  | 0x90 => .fview0
  | 0x98 => .fview1
  | _ => .reserved

/-- R50: the window's size in bytes. -/
abbrev windowBytes : Nat := 256

/-- R52: every host access is 64 bits wide. -/
abbrev accessBytes : Nat := 8

/-- R52: the window offset of an access, where it is 64 bits wide, at a multiple of 8 and inside the
window; none for every other access. -/
def windowOffset (p : Params) (a : BusAccess) : Option Nat :=
  if a.size = accessBytes ∧ p.base ≤ a.addr ∧ (a.addr - p.base) % 8 = 0
      ∧ a.addr - p.base + accessBytes ≤ windowBytes
  then some (a.addr - p.base) else none

/-- What a read of a register returns while no command is in progress (R29 to R37, R53). No read has a
side effect (R54). -/
def readReg (r : Reg) (s : State) : Word :=
  match r with
  | .cmd => 0
  | .status => statusWord s
  | .dataIn => s.dataIn
  | .digest k => s.digest[k]
  | .hview i => s.hash.h[i]
  | .tview0 => s.hash.t0
  | .tview1 => s.hash.t1
  | .fview0 => s.hash.f0
  | .fview1 => s.hash.f1
  | .reserved => 0

/-- R213: accepting a CMD write: the word is pending, BUSY is 1, and the time to its completion is the
free value of this engine's draw. The word is not interpreted yet: legal or not, it is accepted (R153). -/
def acceptCommand (w : Word) (s : State) : State :=
  { s with pending := some w, busyLeft := Config.latency s.params.engineNumber s.draws, draws := s.draws + 1 }

/-- What a write to a register does (R29, R35, R53, R54): CMD issues a command, DATA_IN stores, every
other write is ignored. -/
def writeReg (r : Reg) (v : Word) (s : State) : State :=
  match r with
  | .cmd => acceptCommand v s
  | .dataIn => { s with dataIn := v }
  | .status | .digest _ | .hview _ | .tview0 | .tview1 | .fview0 | .fview1 | .reserved => s

end Sys2Proof.Machine
end

