-- ==== Sys2Proof/Machine/Port.lean ====
section
/-! DEFINITION. The host port and the reset input: which of the engine's activities a step performs, and
what each does (spec 20_memory.md R52, R61, R62; 70_reset_and_hazards.md R210, R213). -/

namespace Sys2Proof.Machine

/-- R210, R41: every piece of state takes its reset value and a pending command is discarded. The
parameters, the reset input's own level and the host port (accesses waiting, responses given, free values
drawn) are not the engine's state. -/
def applyReset (s : State) : State :=
  { State.reset with
    params := s.params
    resetIn := s.resetIn
    draws := s.draws
    port := s.port
    responses := s.responses }

/-- The port completes an access with response `r`. -/
def respond (r : Response) (s : State) : State := { s with responses := r :: s.responses }

/-- R51, R54: what the access `op` at window offset `off` does, while no command is in progress. -/
def accessWindow (off : Nat) (op : BusOp) (s : State) : State :=
  match op with
  | .read => respond (.data (readReg (regAt off) s)) s
  | .write v => respond .written (writeReg (regAt off) v s)

/-- R52, R61: perform one access, no command being in progress. An access R52 rejects gets the bus error,
which is a fault of the host agent (R185; log 12). -/
def performAccess (a : BusAccess) (s : State) : Host.Outcome State Fault Refusal :=
  match windowOffset s.params a with
  | none => .fault (.busError a)
  | some off => .next (accessWindow off a.op s)

/-- R213(c): the access is a read of STATUS. -/
def isStatusRead (p : Params) (a : BusAccess) : Bool :=
  decide (a.op = .read) && decide ((windowOffset p a).map regAt = some .status)

/-- R213(c): a STATUS read is answered while BUSY, with a fresh free value. -/
def answerStatusWhileBusy (s : State) : State :=
  respond (.data (statusWhileBusy s.params.engineNumber s.draws)) { s with draws := s.draws + 1 }

/-- R213: one step of the BUSY interval. A STATUS read at the port's head is answered; every other access
is held, and the accesses behind it with it (R61: one at a time, in the order received; DEDUCED, safe:
log 7). -/
def busyWait (s : State) : State :=
  let s := { s with busyLeft := s.busyLeft - 1 }
  match s.port with
  | [] => s
  | a :: rest =>
    if isStatusRead s.params a then answerStatusWhileBusy { s with port := rest } else s

/-- What the engine does in one step. -/
inductive Turn where
  /-- Reset is asserted (R210). -/
  | inReset
  /-- A command is in progress and does not complete in this step (R213). -/
  | busy
  /-- The pending command completes in this step (R153). -/
  | completes (w : Word)
  /-- No command is in progress and the port's oldest access is performed (R61). -/
  | performs (a : BusAccess) (rest : List BusAccess)
  /-- Nothing is pending and no access waits. -/
  | idle
  deriving DecidableEq, Repr

/-- Which activity comes next. Reset overrides everything (R210); a pending command holds the accesses
back until it completes (R213). -/
def turn (s : State) : Turn :=
  if s.resetIn then .inReset
  else
    match s.pending with
    | some w => if s.busyLeft = 0 then .completes w else .busy
    | none =>
      match s.port with
      | [] => .idle
      | a :: rest => .performs a rest

/-- R74, R181: an illegal word completes as ILLEGAL_CMD and changes nothing else. -/
def completeIllegal (s : State) : State := raiseError .illegalCmd s

/-- Place the command word `w` so that the next step completes it: accepted, with no waiting left. -/
def placeCommand (w : Word) (s : State) : State :=
  { s with resetIn := false, pending := some w, busyLeft := 0 }

end Sys2Proof.Machine
end

