-- ==== Sys2Proof/Machine/Step.lean ====
section
/-! DEFINITION. One step of the engine. -/

namespace Sys2Proof.Machine

/-- One step. The "fetch" is the pending command word, which a CMD write left (spec 20_memory.md R65:
there is no instruction fetch; 42_streaming.md R153: every accepted word ends in one atomic step). With
nothing pending and no access waiting the engine is idle and nothing changes (DESIGN CHOICE, safe: log 10). -/
def step (s : State) : Host.Outcome State Fault Refusal :=
  match turn s with
  | .inReset => .next (applyReset s)
  | .busy => .next (busyWait s)
  | .completes w =>
    match Sys2Proof.decode w with
    | .ok i => exec i s
    | .error _ => .next (completeIllegal s)
  | .performs a rest => performAccess a { s with port := rest }
  | .idle => .next s

/-- `s` with the command word of `nbits` bits `w` (every bit above is 0) as the accepted command that the
next step completes. Log 10 says how commands come to run from State.reset. -/
def State.withFetchWord (s : State) (nbits w : Nat) : State :=
  placeCommand (BitVec.ofNat 64 (w % 2 ^ nbits)) s

end Sys2Proof.Machine
end

