-- ==== Sys2Proof/Machine/Environment.lean ====
section
/-! DEFINITION. What the outside world does to the engine between its steps: presenting accesses on the
host port and driving the reset input (spec 00_scope.md R12, 70_reset_and_hazards.md R210). A run of the
engine under its environment is a list of events. -/

namespace Sys2Proof.Machine

/-- One event. -/
inductive Event where
  /-- The port receives an access (20_memory.md R61). -/
  | present (a : BusAccess)
  /-- The reset input is asserted, at any moment (R210: "the only asynchronous event the engine has"). -/
  | assertReset
  /-- The reset input is released. -/
  | releaseReset
  /-- The engine takes a step. -/
  | engineStep
  deriving DecidableEq, Repr

/-- R61: the port receives an access behind those already waiting. One that arrives while reset is
asserted "is outside the model" (R210, U7): refused. -/
def presentAccess (a : BusAccess) (s : State) : Host.Outcome State Fault Refusal :=
  if s.resetIn then .refused (.accessDuringReset a) else .next { s with port := s.port ++ [a] }

/-- R210: asserting reset gives every piece of state its reset value. Whether an access held at that
moment is dropped or stays held is a free value (log 6). -/
def assertReset (s : State) : State :=
  if s.resetIn then s
  else
    { applyReset s with
      resetIn := true
      port := if Config.dropsHeld s.params.engineNumber s.draws then [] else s.port
      draws := s.draws + 1 }

/-- R210: "and on its release, every piece of state takes the value" of R41. -/
def releaseReset (s : State) : State :=
  if s.resetIn then { applyReset s with resetIn := false } else s

/-- What one event does. -/
def react (e : Event) (s : State) : Host.Outcome State Fault Refusal :=
  match e with
  | .present a => presentAccess a s
  | .assertReset => .next (assertReset s)
  | .releaseReset => .next (releaseReset s)
  | .engineStep => step s

/-- A sequence of events, stopping at the first fault or refusal. -/
def runEvents : List Event → State → Host.Outcome State Fault Refusal
  | [], s => .next s
  | e :: es, s =>
    match react e s with
    | .next s' => runEvents es s'
    | .fault f => .fault f
    | .refused r => .refused r

end Sys2Proof.Machine
end

