-- ==== Sys2Proof/Machine/HostMacros.lean ====
section
/-! DEFINITION. The host-side syntax and macros of the spec: WR, RD and POLL (30_encoding.md R76),
ABSORBB, UPDATE and HASH (R77). They are accesses a host makes, not commands. -/

namespace Sys2Proof.Machine

/-- R51: a register's offset in the window; for `reserved`, the first reserved offset. -/
def Reg.offset : Reg → Nat
  | .cmd => 0x00
  | .status => 0x08
  | .dataIn => 0x10
  | .digest k => 0x20 + 8 * k.val
  | .hview i => 0x40 + 8 * i.val
  | .tview0 => 0x80
  | .tview1 => 0x88
  | .fview0 => 0x90
  | .fview1 => 0x98
  | .reserved => 0x18

/-- R12: `HostWrite(off, v)`, a 64-bit write at BASE + off. -/
def hostWrite (p : Params) (off : Nat) (v : Word) : BusAccess :=
  { addr := p.base + off, size := accessBytes, op := .write v }

/-- R12: `HostRead(off)`, a 64-bit read at BASE + off. -/
def hostRead (p : Params) (off : Nat) : BusAccess :=
  { addr := p.base + off, size := accessBytes, op := .read }

/-- R76: `WR <reg>, <imm64>`. -/
def wr (p : Params) (r : Reg) (v : Word) : BusAccess := hostWrite p r.offset v

/-- R76: `RD <reg>`. -/
def rd (p : Params) (r : Reg) : BusAccess := hostRead p r.offset

/-- R76: `WR CMD, <command>`: a mnemonic stands for its word. -/
def wrCmd (p : Params) (i : Instr) : BusAccess := wr p .cmd (encode i)

/-- R77: `ABSORBB b0, ..., b(k-1)`, 0 ≤ k ≤ 8. -/
def absorbB (p : Params) (bytes : List Byte) : List BusAccess :=
  [wr p .dataIn (wordOfBytes bytes), wrCmd p (.absorb (BitVec.ofNat 8 bytes.length))]

/-- R77: `UPDATE`, for a given slicing of its bytes ("the slicing is free"). -/
def updateSlices (p : Params) (slices : List (List Byte)) : List BusAccess :=
  slices.flatMap (absorbB p)

/-- R77: one slicing into consecutive pieces of at most 8 bytes; `fuel` bounds the number of pieces, and
the length of the bytes is always enough. -/
def sliceBy8 : Nat → List Byte → List (List Byte)
  | 0, _ => []
  | fuel + 1, bytes => if bytes = [] then [] else bytes.take 8 :: sliceBy8 fuel (bytes.drop 8)

/-- R77: `RD DIGEST0 .. RD DIGEST3`. -/
def readDigest (p : Params) : List BusAccess :=
  [rd p (.digest 0), rd p (.digest 1), rd p (.digest 2), rd p (.digest 3)]

/-- R77: `HASH`, for a given slicing of its bytes. -/
def hashSlices (p : Params) (slices : List (List Byte)) : List BusAccess :=
  wrCmd p .init :: updateSlices p slices ++ wrCmd p (.final 32) :: readDigest p

/-- R77: `HASH <bytes>`, cut into pieces of 8. -/
def hashBytes (p : Params) (bytes : List Byte) : List BusAccess :=
  hashSlices p (sliceBy8 bytes.length bytes)

/-- The newest response is a word with BUSY = 0. -/
def lastReadNotBusy (s : State) : Bool :=
  match s.responses with
  | .data v :: _ => !v.getLsbD 0
  | _ => false

/-- R76: `POLL`: "read STATUS until BUSY = 0", a loop the host runs. `asked` says that a STATUS read of
this loop has been presented and not yet judged; `fuel` bounds the loop's actions (present a read, let the
engine step, judge the answer). The result's flag says that the loop ended by seeing BUSY = 0. -/
def poll : Nat → Bool → State → Host.Outcome (Bool × State) Fault Refusal
  | 0, _, s => .next (false, s)
  | fuel + 1, false, s =>
    match presentAccess (rd s.params .status) s with
    | .next s' => poll fuel true s'
    | .fault f => .fault f
    | .refused r => .refused r
  | fuel + 1, true, s =>
    if s.port = [] then
      if lastReadNotBusy s then .next (true, s) else poll fuel false s
    else
      match step s with
      | .next s' => poll fuel true s'
      | .fault f => .fault f
      | .refused r => .refused r

end Sys2Proof.Machine
end

