-- ==== Sys2Proof/Machine/Instances.lean ====
section
/-! DEFINITION. Several engines (spec 60_exceptions.md R190): independent instances, each with its own full
state and its own window, sharing nothing. -/

namespace Sys2Proof.Machine

/-- R190: the instances, each a machine of its own (DESIGN CHOICE of form, safe: log 14). -/
abbrev Engines := List State

/-- R190: an event at instance `k` is that instance's event and no other's; none if there is no such
instance. -/
def reactAt (k : Nat) (e : Event) (es : Engines) : Option (Host.Outcome Engines Fault Refusal) :=
  match es[k]? with
  | none => none
  | some s =>
    match react e s with
    | .next s' => some (.next (es.set k s'))
    | .fault f => some (.fault f)
    | .refused r => some (.refused r)

/-- What the platform fixes for one engine: its window and its LAST_NODE_MODE (R6, R7). -/
structure Placement where
  windowIndex : Nat
  lastNodeMode : LastNodeMode
  deriving DecidableEq, Repr

/-- The parameters of engine `k` with placement `p`. -/
def Placement.params (k : Nat) (p : Placement) : Params :=
  { windowIndex := p.windowIndex, lastNodeMode := p.lastNodeMode, engineNumber := k }

/-- R190: "Instances start in the reset state": the engines with the given placements, each with its own
number. -/
def Engines.reset (ps : List Placement) : Engines :=
  ps.mapIdx fun k p => { State.reset with params := p.params k }

/-- A sequence of events, each at an instance: any interleaving of what happens to the engines. It stops at
the first fault or refusal; none if an event names no instance. -/
def runAll : List (Nat × Event) → Engines → Option (Host.Outcome Engines Fault Refusal)
  | [], es => some (.next es)
  | ev :: evs, es =>
    match reactAt ev.1 ev.2 es with
    | none => none
    | some (.next es') => runAll evs es'
    | some (.fault f) => some (.fault f)
    | some (.refused r) => some (.refused r)

/-- The events of a sequence that are instance `j`'s, in their order. -/
def eventsOf (j : Nat) (evs : List (Nat × Event)) : List Event :=
  (evs.filter fun ev => ev.1 == j).map Prod.snd

end Sys2Proof.Machine
end

