-- ==== Sys2Proof/Safety.lean ====
section
/-! DEFINITION. The terms claims use: the invariants of the engine, the states its environment can reach,
what a host can observe, and the digest as a function of the message alone. -/

namespace Sys2Proof.Machine

/-- R20: `T = T1·2^64 + T0`. -/
def counter (x : HashState) : Nat := x.t1.toNat * 2 ^ 64 + x.t0.toNat

/-- R24: `BUF[0..BUFLEN)`, the valid pending input, oldest first. -/
def validBytes (x : HashState) : List Byte := (List.range x.bufLen).map fun j => Memory.read j x.buf

/-- R144: equality "in every observable component": H, T0, T1, BUFLEN and the valid bytes (with the
flags, which no update writes). The bytes of BUF past BUFLEN are not compared (R24). -/
structure sameStream (x y : HashState) : Prop where
  h : x.h = y.h
  t0 : x.t0 = y.t0
  t1 : x.t1 = y.t1
  f0 : x.f0 = y.f0
  f1 : x.f1 = y.f1
  bufLen : x.bufLen = y.bufLen
  valid : validBytes x = validBytes y

/-- What holds of the hash state of an engine whose LAST_NODE_MODE is `mode` (R23, R27, R58). -/
structure HashInv (mode : LastNodeMode) (x : HashState) : Prop where
  /-- R58: every listed index is in 0..127 (and the list is canonical). -/
  bufWf : Memory.wf x.buf
  /-- R23: F0 holds no value but 0 and all-ones. -/
  f0Legal : x.f0 = 0 ∨ x.f0 = ones64
  /-- R23, R27: F1 is 0 until finalization and then what LAST_NODE_MODE selects. -/
  f1Legal : x.f1 = if x.f0 = 0 then 0 else lastNodeFlag mode
  /-- R27: while not finalized, T is a multiple of 128. -/
  wholeBlocks : x.f0 = 0 → counter x % 128 = 0
  /-- R27: while not finalized, BUFLEN = 0 exactly when nothing has been absorbed. -/
  emptyIsInitial : x.f0 = 0 → x.bufLen = 0 → x = HashState.initial

/-- The invariant of the machine. -/
structure Inv (s : State) : Prop where
  hash : HashInv s.params.lastNodeMode s.hash
  /-- The BUSY interval exists only for a pending command (R40). -/
  notBusy : s.pending = none → s.busyLeft = 0
  /-- R210: while reset is asserted every piece of state holds its reset value. -/
  inReset : s.resetIn = true → s = applyReset s

/-- The states an engine with parameters `p` can be in, whatever its hosts and its reset input do. -/
inductive Reachable (p : Params) : State → Prop
  | reset : Reachable p { State.reset with params := p }
  | react (s s' : State) (e : Event) : Reachable p s → react e s = .next s' → Reachable p s'

/-- R14: the state a command's effect is a function of, and the state it may write: everything but the
port, its responses and the model's own counters. -/
structure sameEngine (s t : State) : Prop where
  params : s.params = t.params
  hash : s.hash = t.hash
  err : s.err = t.err
  dataIn : s.dataIn = t.dataIn
  digest : s.digest = t.digest

/-- The state that a run of commands has: no command pending, reset released. -/
def ready (s : State) : Prop := s.resetIn = false ∧ s.pending = none ∧ s.busyLeft = 0

/-! The digest as a function of the message alone (R143, R145, R148), with no buffer. -/

/-- R143: how many blocks of an n-byte message are compressed before finalization:
`max(0, ceil(n/128) - 1)`. -/
def wholeBlocksBefore (n : Nat) : Nat := (n - 1) / blockBytes

/-- R20: the low and the high word of the counter value n. -/
def counterLow (n : Nat) : Word := BitVec.ofNat 64 n
/-- R20: the high word of the counter value n. -/
def counterHigh (n : Nat) : Word := BitVec.ofNat 64 (n / 2 ^ 64)

/-- R143: the chaining value after compressing the first `k` blocks of the message in order, each with
zero flags and the counter value `128·j` for its j-th block. -/
def chainAfter (msg : List Byte) : Nat → Vector Word 8
  | 0 => hInit
  | k + 1 =>
    compress (chainAfter msg k) (counterLow (128 * (k + 1))) (counterHigh (128 * (k + 1))) 0 0
      ((msg.drop (128 * k)).take 128)

/-- R145: the last block: the message bytes that remain, zero-padded to 128. -/
def lastBlock (msg : List Byte) : List Byte :=
  let rest := msg.drop (128 * wholeBlocksBefore msg.length)
  rest ++ List.replicate (128 - rest.length) 0

/-- R145: the chaining value after the last block of the message, whose counter is the message's length and
whose flags are set. -/
def finalChain (mode : LastNodeMode) (msg : List Byte) : Vector Word 8 :=
  compress (chainAfter msg (wholeBlocksBefore msg.length)) (counterLow msg.length)
    (counterHigh msg.length) ones64 (lastNodeFlag mode) (lastBlock msg)

/-- R148: the digest words of a message. -/
def messageDigest (mode : LastNodeMode) (msg : List Byte) : Vector Word 4 :=
  digestOfChain (finalChain mode msg)

/-- A run of ABSORB commands, each with DATA_IN loaded before it: (DATA_IN, LEN) pairs. -/
def absorbAll : List (Word × BitVec 8) → State → Host.Outcome State Fault Refusal
  | [], s => .next s
  | (d, len) :: ops, s =>
    match exec (.absorb len) { s with dataIn := d } with
    | .next s' => absorbAll ops s'
    | .fault f => .fault f
    | .refused r => .refused r

/-- The bytes such a run absorbs, in command order (R59). -/
def absorbedBytes (ops : List (Word × BitVec 8)) : List Byte :=
  ops.flatMap fun o => operandBytes o.2 o.1

/-! What claims about the host port say. -/

/-- R41, R210: every piece of state holds its reset value. -/
structure holdsResetValues (s : State) : Prop where
  hash : s.hash = HashState.initial
  err : s.err = .ok
  dataIn : s.dataIn = 0
  digest : s.digest = Vector.replicate 4 0
  pending : s.pending = none

/-- With no command in progress, a 64-bit read of window offset `off` returns `value`, and nothing but the
port's queue and responses changes. -/
def readsAs (off : Nat) (value : State → Word) : Prop :=
  ∀ (s : State) (rest : List BusAccess), ready s → s.port = hostRead s.params off :: rest →
    step s = .next { s with port := rest, responses := .data (value s) :: s.responses }

/-- With no command in progress, a 64-bit write of any value at window offset `off` is ignored: nothing but
the port's queue and responses changes. -/
def ignoresWrites (off : Nat) : Prop :=
  ∀ (s : State) (v : Word) (rest : List BusAccess), ready s → s.port = hostWrite s.params off v :: rest →
    step s = .next { s with port := rest, responses := .written :: s.responses }

/-- R74: the conditions (a) to (d) under which a command word is legal, on the word's number. -/
def legalWord (w : Word) : Prop :=
  let opc := w.toNat % 256
  let arg := w.toNat / 256 % 256
  (opc = 1 ∨ opc = 2 ∨ opc = 3) ∧ w.toNat / 65536 = 0 ∧ (opc = 1 → arg = 0) ∧ (opc = 2 → arg ≤ 8)

/-- What remains of a state when a command has completed with error code `c` and no other write. -/
def onlyError (c : ErrCode) (s : State) : State := { s with err := c, pending := none, busyLeft := 0 }

end Sys2Proof.Machine
end

