-- ==== Sys2Proof/Certificates/Slice0/Obligations.lean ====
section
/-! DEFINITION. The statements for the provers. Each docstring names the rule of the spec it formalises. -/

open Sys2Proof Sys2Proof.Machine

/-! ## Encoding -/

/-- 30_encoding.md R73, R75 on the words 95_test_vectors.md section 2.9 lists. -/
def Obligations.DecodeReadsTheListedWords : Prop :=
  decode 0x0000000000000001 = .ok .init ∧
  decode 0x0000000000000002 = .ok (.absorb 0) ∧
  decode 0x0000000000000802 = .ok (.absorb 8) ∧
  decode 0x0000000000000003 = .ok (.final 0) ∧
  decode 0x0000000000002003 = .ok (.final 32) ∧
  decode 0x000000000000ff03 = .ok (.final 255) ∧
  decode 0x0000000000000101 = .error .initArgument ∧
  decode 0x0000000000000902 = .error .absorbLength ∧
  decode 0x0000000000000000 = .error .reservedOpcode ∧
  decode 0x0000000000000004 = .error .reservedOpcode ∧
  decode 0x00000000000000ff = .error .reservedOpcode ∧
  decode 0x0000000000010001 = .error .reservedBits ∧
  decode 0x8000000000000003 = .error .reservedBits

/-- R75: decoding is total, and every word decodes as the rule's match says: on the fields of the word's
number, RSV = 0 and OPC and ARG as the instruction has them. -/
def Obligations.DecodeFollowsTheFields : Prop :=
  ∀ (w : Word) (i : Instr), decode w = .ok i ↔
    w.toNat / 65536 = 0 ∧
    (match i with
     | .init => w.toNat % 256 = 1 ∧ w.toNat / 256 % 256 = 0
     | .absorb len => w.toNat % 256 = 2 ∧ w.toNat / 256 % 256 = len.toNat ∧ len.toNat ≤ 8
     | .final outlen => w.toNat % 256 = 3 ∧ w.toNat / 256 % 256 = outlen.toNat)

/-- R74: a word is legal (decodes to an instruction) iff (a) to (d) hold, and an illegal word, once
accepted, completes as ILLEGAL_CMD and changes nothing but STATUS.ERR (and ends the BUSY interval). -/
def Obligations.IllegalWordsChangeOnlyErr : Prop :=
  (∀ w : Word, legalWord w ↔ ∃ i, decode w = .ok i) ∧
  (∀ (s : State) (w : Word), s.resetIn = false → s.pending = some w → s.busyLeft = 0 → ¬ legalWord w →
    step s = .next (onlyError .illegalCmd s))

/-- R73, R75: encoding and decoding agree, for every well-formed instruction with every operand, and for
every word that decodes; the encoded number is OPC + 256 · ARG. -/
def Obligations.EncodeAndDecodeAgree : Prop :=
  (∀ i : Instr, i.wellFormed = true → decode (encode i) = .ok i) ∧
  (∀ (w : Word) (i : Instr), decode w = .ok i → i.wellFormed = true ∧ encode i = w) ∧
  (encode .init).toNat = 1 ∧
  (∀ len : BitVec 8, (encode (.absorb len)).toNat = 2 + 256 * len.toNat) ∧
  (∀ outlen : BitVec 8, (encode (.final outlen)).toNat = 3 + 256 * outlen.toNat)

/-! ## Notation: words and bytes -/

/-- 00_scope.md R9: for 0 < n < 64, `rotr(x, n)` is the circular right rotation: bit i of the result is bit
(i + n) mod 64 of x. -/
def Obligations.RotrIsTheCircularRightRotation : Prop :=
  ∀ (x : Word) (n i : Nat), 0 < n → n < 64 → i < 64 → (rotr x n).getLsbD i = x.getLsbD ((i + n) % 64)

/-- 00_scope.md R10: `load64le` and `store64le` are little-endian and inverse to each other. -/
def Obligations.LoadAndStoreAreLittleEndian : Prop :=
  (∀ (b : List Byte) (k i : Nat) (h : k + 8 ≤ b.length) (hi : i < 8),
    byteOf (load64le b k) i = b[k + i]'(by omega)) ∧
  (∀ w : Word, (store64le w).length = 8 ∧ load64le (store64le w) 0 = w) ∧
  (∀ (b : List Byte) (k : Nat), k + 8 ≤ b.length → store64le (load64le b k) = (b.drop k).take 8)

/-! ## Reset and INIT -/

/-- 10_state.md R41: every piece of state after reset, with H by IV and PW and by the values of
40_param_init.md R95; the hash state is the one INIT leaves, the phase is FRESH, STATUS reads 0, and ABSORB
and FINAL run at once. (The fields of State that are the model's own, and BASE, are not in the rule and not in
this statement.) -/
def Obligations.ResetLeavesTheStatedValues : Prop :=
  State.reset.hash.h = #v[0x6a09e667f2bdc928, 0xbb67ae8584caa73b, 0x3c6ef372fe94f82b,
    0xa54ff53a5f1d36f1, 0x510e527fade682d1, 0x9b05688c2b3e6c1f, 0x7ee5bccfd623d608, 0x3393ac713e0a4d0c] ∧
  (∀ i : Fin 8, State.reset.hash.h[i] = iv[i] ^^^ load64le parameterBlock (8 * i)) ∧
  State.reset.hash.t0 = 0 ∧ State.reset.hash.t1 = 0 ∧
  State.reset.hash.f0 = 0 ∧ State.reset.hash.f1 = 0 ∧
  (∀ j : Nat, Memory.read j State.reset.hash.buf = 0) ∧
  State.reset.hash.bufLen = 0 ∧
  statusWord State.reset = 0 ∧ phase State.reset.hash = .fresh ∧ State.reset.err = .ok ∧
  State.reset.dataIn = 0 ∧
  (∀ k : Fin 4, State.reset.digest[k] = 0) ∧
  State.reset.pending = none ∧
  (∀ s : State, ∃ t : State, exec .init s = .next t ∧ t.hash = State.reset.hash) ∧
  (∀ len : BitVec 8, len.toNat ≤ 8 → ∃ t : State, exec (.absorb len) State.reset = .next t ∧ t.err = .ok) ∧
  (∀ outlen : BitVec 8, 32 ≤ outlen.toNat →
    ∃ t : State, exec (.final outlen) State.reset = .next t ∧ t.err = .ok)

/-- 40_param_init.md R95: `HINIT[i] = IV[i] ^ PW[i]`, and the table of its values. -/
def Obligations.InitialChainIsIvXorParameters : Prop :=
  (∀ i : Fin 8, hInit[i] = iv[i] ^^^ load64le parameterBlock (8 * i)) ∧
  hInit = #v[0x6a09e667f2bdc928, 0xbb67ae8584caa73b, 0x3c6ef372fe94f82b, 0xa54ff53a5f1d36f1,
    0x510e527fade682d1, 0x9b05688c2b3e6c1f, 0x7ee5bccfd623d608, 0x3393ac713e0a4d0c]

/-- 40_param_init.md R96, 42_streaming.md R150: in every state, finalized or not, INIT completes: H is the
initial chaining value, the counter, the flags, BUFLEN and every byte of BUF are 0, STATUS.ERR is OK, and
nothing else changes but the end of the BUSY interval. Reset loads the same hash state. -/
def Obligations.InitLoadsTheInitialState : Prop :=
  ∀ s : State, ∃ x : HashState,
    exec .init s = .next { s with hash := x, err := .ok, pending := none, busyLeft := 0 } ∧
    (∀ i : Fin 8, x.h[i] = hInit[i]) ∧ x.t0 = 0 ∧ x.t1 = 0 ∧ x.f0 = 0 ∧ x.f1 = 0 ∧
    (∀ j : Nat, Memory.read j x.buf = 0) ∧ x.bufLen = 0 ∧ phase x = .fresh ∧ (applyReset s).hash = x

/-- 42_streaming.md R150 (corner case), 70_reset_and_hazards.md R211: from a FRESH state that the machine
can be in, INIT changes nothing but STATUS.ERR (and ends the BUSY interval). -/
def Obligations.InitFromFreshChangesNothing : Prop :=
  ∀ s : State, Inv s → phase s.hash = .fresh →
    exec .init s = .next { s with err := .ok, pending := none, busyLeft := 0 }

/-- 70_reset_and_hazards.md R210: while reset is asserted, when it is asserted and when it is released,
every piece of state holds its reset value; a pending command is discarded and so writes nothing; an access
that arrives while reset is asserted is outside the model. -/
def Obligations.ResetOverridesEverything : Prop :=
  (∀ s : State, s.resetIn = true → ∃ t, step s = .next t ∧ holdsResetValues t ∧ t.resetIn = true) ∧
  (∀ s : State, s.resetIn = false → holdsResetValues (assertReset s) ∧ (assertReset s).resetIn = true) ∧
  (∀ s : State, s.resetIn = true → holdsResetValues (releaseReset s) ∧ (releaseReset s).resetIn = false) ∧
  (∀ (s : State) (a : BusAccess), s.resetIn = true →
    react (.present a) s = .refused (.accessDuringReset a))

/-! ## The compression function -/

/-- 41_compression.md R115: one round. The column step applies G to the four columns and the diagonal step
to the four diagonals, each G on the words the step found (the four applications touch disjoint words), with
message slots s[2i], s[2i+1] for the columns and s[8+2i], s[9+2i] for the diagonals; the column step comes
first, and both use row `r mod 10` of SIGMA. -/
def Obligations.RoundMixesColumnsThenDiagonals : Prop :=
  (∀ (v m : Vector Word 16) (r : Nat),
    mixRound v m r = diagonalStep m (sigma[r % 10]'(Nat.mod_lt r (by decide)))
      (columnStep m (sigma[r % 10]'(Nat.mod_lt r (by decide))) v)) ∧
  (∀ (v m : Vector Word 16) (s : Vector (Fin 16) 16) (i : Fin 4),
    let w := columnStep m s v
    (w[i.val], w[4 + i.val], w[8 + i.val], w[12 + i.val]) =
      g v[i.val] v[4 + i.val] v[8 + i.val] v[12 + i.val] m[s[2 * i.val]] m[s[2 * i.val + 1]]) ∧
  (∀ (v m : Vector Word 16) (s : Vector (Fin 16) 16) (i : Fin 4),
    let w := diagonalStep m s v
    (w[i.val], w[4 + (i.val + 1) % 4], w[8 + (i.val + 2) % 4], w[12 + (i.val + 3) % 4]) =
      g v[i.val] v[4 + (i.val + 1) % 4] v[8 + (i.val + 2) % 4] v[12 + (i.val + 3) % 4]
        m[s[8 + 2 * i.val]] m[s[9 + 2 * i.val]])

/-- 41_compression.md R114: every sigma row is a permutation of 0..15, and rounds 10 and 11 reuse rows 0 and
1. (The rule's own remark that a message word then enters a round "exactly twice" is not stated: sixteen
slots for sixteen words make it once. See NOTES.md.) -/
def Obligations.SigmaRowsArePermutations : Prop :=
  (∀ r : Nat, ((sigmaRow r).toList.map Fin.val).Perm (List.range 16)) ∧
  (∀ r : Nat, sigmaRow (r + 10) = sigmaRow r)

/-- 41_compression.md R110, R112, R116, R117: `Compress` from its parts: the working vector's sixteen words,
twelve rounds in increasing order, and the output's words. -/
def Obligations.CompressRunsTwelveRounds : Prop :=
  ∀ (h : Vector Word 8) (t0 t1 f0 f1 : Word) (block : List Byte),
    ∃ v : Nat → Vector Word 16,
      (∀ i : Fin 8, (v 0)[i.val] = h[i]) ∧
      (∀ i : Fin 4, (v 0)[8 + i.val] = iv[i.val]) ∧
      (v 0)[12] = iv[4] ^^^ t0 ∧ (v 0)[13] = iv[5] ^^^ t1 ∧
      (v 0)[14] = iv[6] ^^^ f0 ∧ (v 0)[15] = iv[7] ^^^ f1 ∧
      (∀ r : Nat, r < 12 → v (r + 1) = mixRound (v r) (messageWords block) r) ∧
      (∀ i : Fin 8, (compress h t0 t1 f0 f1 block)[i] = h[i] ^^^ (v 12)[i.val] ^^^ (v 12)[i.val + 8])

/-! ## The counter and Update -/

/-- 42_streaming.md R140: `IncrementCounter(x)` is the 128-bit addition `T <- (T + x) mod 2^128`, and
writes nothing but T0 and T1. -/
def Obligations.IncrementCounterIs128BitAddition : Prop :=
  ∀ (x : HashState) (n : Nat), n < 2 ^ 64 →
    counter (incrementCounter n x) = (counter x + n) % 2 ^ 128 ∧
    incrementCounter n x =
      { x with t0 := (incrementCounter n x).t0, t1 := (incrementCounter n x).t1 }

/-- 42_streaming.md R142: an update of zero bytes changes no state; from BUFLEN = 128 with at least one
byte, the buffered block is counted and compressed first and the new bytes are then buffered; from
BUFLEN = 0 with 128 bytes, all are buffered and nothing is compressed. -/
def Obligations.UpdateAtTheBlockBoundary : Prop :=
  (∀ x : HashState, update [] x = x) ∧
  (∀ (x : HashState) (d : List Byte), Memory.wf x.buf → x.bufLen.val = 128 → 1 ≤ d.length →
    sameStream (update d x) (update d { absorbBlock (bufBlock x.buf) x with bufLen := 0 })) ∧
  (∀ (x : HashState) (d : List Byte), Memory.wf x.buf → x.bufLen = 0 → d.length = 128 →
    (update d x).h = x.h ∧ counter (update d x) = counter x ∧ (update d x).bufLen.val = 128 ∧
    validBytes (update d x) = d)

/-- 42_streaming.md R144, chunking invariance: updating with the pieces one by one, empty pieces included,
equals one update with their concatenation in every observable component, and the finalized chaining value
(so the digest) is the same. -/
def Obligations.ChunkingDoesNotMatter : Prop :=
  ∀ (x : HashState) (pieces : List (List Byte)), Memory.wf x.buf →
    let y := pieces.foldl (fun x b => update b x) x
    sameStream y (update pieces.flatten x) ∧
    ∀ mode : LastNodeMode, (finalize mode y).h = (finalize mode (update pieces.flatten x)).h

/-- 42_streaming.md R143: after any sequence of updates since INIT with the bytes `msg` absorbed in total,
k = max(0, ceil(n/128) - 1) blocks have been compressed: T = 128·k, BUFLEN = n - 128·k, the buffer holds the
last BUFLEN bytes of the stream, H is the chaining value after the first k blocks in order, each with zero
flags and counter 128·j. (T is 128 bits wide: R140 wraps it at 2^128.) -/
def Obligations.StreamStateAfterUpdates : Prop :=
  ∀ pieces : List (List Byte),
    let msg := pieces.flatten
    let y := pieces.foldl (fun x b => update b x) HashState.initial
    let k := wholeBlocksBefore msg.length
    counter y = 128 * k % 2 ^ 128 ∧ y.bufLen.val = msg.length - 128 * k ∧
    validBytes y = msg.drop (128 * k) ∧ y.h = chainAfter msg k ∧ y.f0 = 0 ∧ y.f1 = 0

/-- 10_state.md R24: what BUF holds past BUFLEN is never observed. Two states whose hash states agree but
for those bytes run every command to states that again agree but for those bytes. -/
def Obligations.StaleBufferBytesNeverMatter : Prop :=
  ∀ (i : Instr) (s : State) (x : HashState), Memory.wf s.hash.buf → Memory.wf x.buf → sameStream s.hash x →
    ∃ (t : State) (y : HashState), exec i s = .next t ∧ exec i { s with hash := x } = .next { t with hash := y } ∧
      sameStream t.hash y

/-! ## ABSORB -/

/-- 42_streaming.md R151, 60_exceptions.md R186: ABSORB on a finalized state always reports
ALREADY_FINALIZED and changes nothing, LEN = 0 included. The second clause is about an ABSORB term of more than
8 bytes, which no word decodes to (30_encoding.md R74(d)): that its meaning reports ILLEGAL_CMD is the model's
own choice (DESIGN CHOICE: log 11). -/
def Obligations.AbsorbAfterFinalIsRejected : Prop :=
  (∀ (s : State) (len : BitVec 8), len.toNat ≤ 8 → s.hash.f0 ≠ 0 →
    exec (.absorb len) s = .next (onlyError .alreadyFinalized s)) ∧
  (∀ (s : State) (len : BitVec 8), 8 < len.toNat →
    exec (.absorb len) s = .next (onlyError .illegalCmd s))

/-- 42_streaming.md R151, R141: an ABSORB whose bytes fit into the buffer, filling it to exactly 128 bytes
included, compresses nothing. It completes: the LEN low bytes of DATA_IN stand behind the valid bytes,
BUFLEN grows by LEN, STATUS.ERR is OK, every other byte of BUF reads as before, and nothing else changes. -/
def Obligations.AbsorbWithinTheBlock : Prop :=
  ∀ (s : State) (len : BitVec 8), len.toNat ≤ 8 → s.hash.f0 = 0 → Memory.wf s.hash.buf →
    s.hash.bufLen.val + len.toNat ≤ 128 →
    ∃ (buf : Memory) (bufLen : Fin 129),
      exec (.absorb len) s = .next
        { s with hash := { s.hash with buf := buf, bufLen := bufLen }, err := .ok, pending := none, busyLeft := 0 } ∧
      bufLen.val = s.hash.bufLen.val + len.toNat ∧
      (∀ k : Nat, k < len.toNat → Memory.read (s.hash.bufLen.val + k) buf = s.dataIn.extractLsb' (8 * k) 8) ∧
      (∀ a : Nat, (a < s.hash.bufLen.val ∨ s.hash.bufLen.val + len.toNat ≤ a) →
        Memory.read a buf = Memory.read a s.hash.buf)

/-- 42_streaming.md R151, R141: an ABSORB whose bytes do not fit compresses exactly once. It completes: the
buffered bytes and the first operand bytes make the block, the counter grows by 128 before the compression,
the remaining operand bytes stand at the buffer's start, STATUS.ERR is OK, every byte of BUF that is not
stored to reads as before, and nothing else changes. -/
def Obligations.AbsorbAcrossTheBlock : Prop :=
  ∀ (s : State) (len : BitVec 8), len.toNat ≤ 8 → s.hash.f0 = 0 → Memory.wf s.hash.buf →
    128 < s.hash.bufLen.val + len.toNat →
    let fill := 128 - s.hash.bufLen.val
    let operand := fun k : Nat => s.dataIn.extractLsb' (8 * k) 8
    ∃ x : HashState,
      exec (.absorb len) s = .next { s with hash := x, err := .ok, pending := none, busyLeft := 0 } ∧
      counter x = (counter s.hash + 128) % 2 ^ 128 ∧
      x.f0 = s.hash.f0 ∧ x.f1 = s.hash.f1 ∧
      x.h = compress s.hash.h x.t0 x.t1 s.hash.f0 s.hash.f1
        (validBytes s.hash ++ (List.range fill).map operand) ∧
      x.bufLen.val = len.toNat - fill ∧
      (∀ k : Nat, k < len.toNat - fill → Memory.read k x.buf = operand (fill + k)) ∧
      (∀ k : Nat, k < fill → Memory.read (s.hash.bufLen.val + k) x.buf = operand k) ∧
      (∀ a : Nat, ((len.toNat - fill ≤ a ∧ a < s.hash.bufLen.val) ∨ 128 ≤ a) →
        Memory.read a x.buf = Memory.read a s.hash.buf)

/-! ## FINAL -/

/-- 42_streaming.md R145, R152: FINAL by its three cases. OUTLEN < 32 raises INVALID_OUTPUT_BUFFER in every
phase; otherwise a finalized state raises ALREADY_FINALIZED; otherwise it completes: the counter grows by
BUFLEN, F0 is all-ones, F1 is what LAST_NODE_MODE selects, BUF is zero-padded behind the valid bytes and
unchanged before them, BUFLEN is unchanged, H is the compression of that block with the new counter and
flags, DIGEST0..3 are H[0..3], STATUS.ERR is OK, and nothing else changes. -/
def Obligations.FinalFinishesTheDigest : Prop :=
  ∀ (s : State) (outlen : BitVec 8),
    (outlen.toNat < 32 → exec (.final outlen) s = .next (onlyError .invalidOutputBuffer s)) ∧
    (32 ≤ outlen.toNat → s.hash.f0 ≠ 0 →
      exec (.final outlen) s = .next (onlyError .alreadyFinalized s)) ∧
    (32 ≤ outlen.toNat → s.hash.f0 = 0 → Memory.wf s.hash.buf →
      ∃ (x : HashState) (d : Vector Word 4),
        exec (.final outlen) s = .next
          { s with hash := x, digest := d, err := .ok, pending := none, busyLeft := 0 } ∧
        counter x = (counter s.hash + s.hash.bufLen.val) % 2 ^ 128 ∧
        x.f0 = ones64 ∧
        (s.params.lastNodeMode = .standard → x.f1 = 0) ∧
        (s.params.lastNodeMode = .docLiteral → x.f1 = ones64) ∧
        x.bufLen = s.hash.bufLen ∧
        x.h = compress s.hash.h x.t0 x.t1 x.f0 x.f1
          (validBytes s.hash ++ List.replicate (128 - s.hash.bufLen.val) 0) ∧
        (∀ k : Fin 4, d[k] = x.h[k.val]) ∧
        (∀ a : Nat, s.hash.bufLen.val ≤ a → a < 128 → Memory.read a x.buf = 0) ∧
        (∀ a : Nat, (a < s.hash.bufLen.val ∨ 128 ≤ a) →
          Memory.read a x.buf = Memory.read a s.hash.buf))

/-- 42_streaming.md R147: after a failed FINAL the hash state and DIGEST are exactly as before, and a later
FINAL into a large enough buffer gives the digest it would have given at the first attempt. -/
def Obligations.FailedFinalLosesNothing : Prop :=
  ∀ (s : State) (small large : BitVec 8), 32 ≤ large.toNat →
    (small.toNat < 32 ∨ s.hash.f0 ≠ 0) →
    ∃ t u v : State, exec (.final small) s = .next t ∧ t.hash = s.hash ∧ t.digest = s.digest ∧
      exec (.final large) t = .next u ∧ exec (.final large) s = .next v ∧
      u.hash = v.hash ∧ u.digest = v.digest

/-- 42_streaming.md R146: finalizing twice fails with ALREADY_FINALIZED and has no further side effects, and
once F0 is set only INIT or reset clears it, whatever the step is. -/
def Obligations.OnlyInitOrResetLeavesFinal : Prop :=
  (∀ (s : State) (outlen : BitVec 8), s.hash.f0 ≠ 0 → 32 ≤ outlen.toNat →
    exec (.final outlen) s = .next (onlyError .alreadyFinalized s)) ∧
  (∀ s t : State, step s = .next t → s.hash.f0 ≠ 0 → t.hash.f0 ≠ s.hash.f0 →
    s.resetIn = true ∨ s.pending = some 0x0000000000000001)

/-! ## Commands as steps -/

/-- 42_streaming.md R153, 20_memory.md R62: with reset released, a pending word and no waiting left, the
step is exactly the decoded command's meaning (for a word that decodes to none, only the error); it ends the
BUSY interval and touches neither the port nor its responses. -/
def Obligations.StepRunsTheDecodedCommand : Prop :=
  ∀ (s : State) (w : Word), s.resetIn = false → s.pending = some w → s.busyLeft = 0 →
    (∀ i : Instr, decode w = .ok i → step s = exec i s) ∧
    (∀ e : IllegalWord, decode w = .error e → step s = .next (onlyError .illegalCmd s)) ∧
    (∃ t : State, step s = .next t ∧ t.pending = none ∧ t.busyLeft = 0 ∧ t.port = s.port ∧
      t.responses = s.responses ∧ t.draws = s.draws ∧ t.params = s.params)

/-- 60_exceptions.md R182: when one command meets several error conditions exactly one code is reported, in
the order ILLEGAL_CMD, INVALID_OUTPUT_BUFFER, ALREADY_FINALIZED, and nothing else is written. -/
def Obligations.ErrorsComeInPriorityOrder : Prop :=
  ∀ (s : State) (w : Word), s.resetIn = false → s.pending = some w → s.busyLeft = 0 →
    (¬ legalWord w → step s = .next (onlyError .illegalCmd s)) ∧
    (legalWord w → w.toNat % 256 = 3 → w.toNat / 256 % 256 < 32 →
      step s = .next (onlyError .invalidOutputBuffer s)) ∧
    (legalWord w → w.toNat % 256 = 3 → 32 ≤ w.toNat / 256 % 256 → s.hash.f0 ≠ 0 →
      step s = .next (onlyError .alreadyFinalized s)) ∧
    (legalWord w → w.toNat % 256 = 2 → s.hash.f0 ≠ 0 →
      step s = .next (onlyError .alreadyFinalized s))

/-- 00_scope.md R14: a command's effect is a function of the engine state before it, the command and DATA_IN
alone: two states that agree in these, whatever their ports, latencies and free values, are taken by the
command to states that agree in them. -/
def Obligations.CommandsAreDeterministic : Prop :=
  ∀ (i : Instr) (s t : State), sameEngine s t →
    ∃ s' t' : State, exec i s = .next s' ∧ exec i t = .next t' ∧ sameEngine s' t'

/-- 10_state.md R21: H is written only by INIT and by reset, which load the initial chaining value, and by a
compression inside ABSORB (exactly when its bytes do not fit) or a FINAL that raises no error. -/
def Obligations.OnlyCompressionsWriteTheChain : Prop :=
  ∀ s t : State, step s = .next t → t.hash.h ≠ s.hash.h →
    (s.resetIn = true ∧ t.hash.h = hInit) ∨
    (s.pending = some 0x0000000000000001 ∧ t.hash.h = hInit) ∨
    (∃ (len : BitVec 8) (block : List Byte), s.pending = some (encode (.absorb len)) ∧ len.toNat ≤ 8 ∧
      128 < s.hash.bufLen.val + len.toNat ∧ block.length = 128 ∧
      t.hash.h = compress s.hash.h t.hash.t0 t.hash.t1 t.hash.f0 t.hash.f1 block) ∨
    (∃ (outlen : BitVec 8) (block : List Byte), s.pending = some (encode (.final outlen)) ∧
      32 ≤ outlen.toNat ∧ s.hash.f0 = 0 ∧ block.length = 128 ∧
      t.hash.h = compress s.hash.h t.hash.t0 t.hash.t1 t.hash.f0 t.hash.f1 block)

/-- 10_state.md R36: DIGEST0..3 are written only by a FINAL that raises no error, which makes them H[0..3],
and by reset, which makes them 0. -/
def Obligations.OnlyFinalWritesTheDigest : Prop :=
  ∀ s t : State, step s = .next t → t.digest ≠ s.digest →
    (s.resetIn = true ∧ ∀ k : Fin 4, t.digest[k] = 0) ∨
    (∃ outlen : BitVec 8, s.pending = some (encode (.final outlen)) ∧ 32 ≤ outlen.toNat ∧
      s.hash.f0 = 0 ∧ t.err = .ok ∧ ∀ k : Fin 4, t.digest[k] = t.hash.h[k.val])

/-- 10_state.md R35: no command writes DATA_IN; it changes only by a host's write to it, which it then
holds, and by reset, which makes it 0. -/
def Obligations.OnlyTheHostWritesDataIn : Prop :=
  ∀ s t : State, step s = .next t → t.dataIn ≠ s.dataIn →
    (s.resetIn = true ∧ t.dataIn = 0) ∨
    (s.resetIn = false ∧ s.pending = none ∧
      ∃ rest : List BusAccess, s.port = hostWrite s.params 0x10 t.dataIn :: rest)

/-- 10_state.md R33: nothing but a command's completion and reset writes STATUS.ERR; reset makes it OK. -/
def Obligations.OnlyCompletionWritesErr : Prop :=
  ∀ s t : State, step s = .next t → t.err ≠ s.err →
    (s.resetIn = true ∧ t.err = .ok) ∨
    (s.resetIn = false ∧ s.pending ≠ none ∧ s.busyLeft = 0 ∧ t.pending = none)

/-! ## STATUS and the register window -/

/-- 10_state.md R26: the phase, from the hash state. -/
def Obligations.PhaseIsDerivedFromTheHashState : Prop :=
  ∀ x : HashState,
    (x.f0 ≠ 0 → phase x = .final) ∧
    (x.f0 = 0 → counter x = 0 → x.bufLen = 0 → phase x = .fresh) ∧
    (x.f0 = 0 → ¬ (counter x = 0 ∧ x.bufLen = 0) → phase x = .accum)

/-- 10_state.md R30, R34: the STATUS word of every state: BUSY in bit 0, PHASE in bits 2:1 (never 3), ERR in
bits 7:4 (never above 3), BUFLEN in bits 15:8 (never above 128), every other bit 0. -/
def Obligations.StatusPacksItsFields : Prop :=
  ∀ s : State,
    (statusWord s).toNat =
      (if s.pending = none then 0 else 1)
      + 2 * (match phase s.hash with | .fresh => 0 | .accum => 1 | .final => 2)
      + 16 * (match s.err with
          | .ok => 0 | .invalidOutputBuffer => 1 | .alreadyFinalized => 2 | .illegalCmd => 3)
      + 256 * s.hash.bufLen.val

/-- 10_state.md R37, 20_memory.md R51: the views read H, T0, T1, F0 and F1 at their offsets, and writes to
them are ignored. -/
def Obligations.ViewsReadTheHashState : Prop :=
  (∀ i : Fin 8, readsAs (0x40 + 8 * i.val) (fun s => s.hash.h[i])) ∧
  readsAs 0x80 (fun s => s.hash.t0) ∧ readsAs 0x88 (fun s => s.hash.t1) ∧
  readsAs 0x90 (fun s => s.hash.f0) ∧ readsAs 0x98 (fun s => s.hash.f1) ∧
  (∀ k : Nat, 8 ≤ k → k < 20 → ignoresWrites (8 * k))

/-- 20_memory.md R53: a read of a reserved offset returns 0 and a write to it is ignored. -/
def Obligations.ReservedOffsetsReadZero : Prop :=
  ∀ off : Nat, (off = 0x18 ∨ (0xA0 ≤ off ∧ off ≤ 0xF8 ∧ off % 8 = 0)) →
    readsAs off (fun _ => 0) ∧ ignoresWrites off

/-- 10_state.md R29, R30, R35, R36, 20_memory.md R51, R54: what the other registers do with no command in
progress: CMD reads 0, STATUS reads its word and ignores writes, DIGESTk read and ignore writes, DATA_IN
reads the last value and a write stores one. -/
def Obligations.ControlRegistersReadAndWrite : Prop :=
  readsAs 0x00 (fun _ => 0) ∧
  readsAs 0x08 statusWord ∧ ignoresWrites 0x08 ∧
  readsAs 0x10 (fun s => s.dataIn) ∧
  (∀ k : Fin 4, readsAs (0x20 + 8 * k.val) (fun s => s.digest[k]) ∧ ignoresWrites (0x20 + 8 * k.val)) ∧
  (∀ (s : State) (v : Word) (rest : List BusAccess), ready s → s.port = hostWrite s.params 0x10 v :: rest →
    step s = .next { s with dataIn := v, port := rest, responses := .written :: s.responses })

/-- 20_memory.md R52, 60_exceptions.md R185: an access that is not 64 bits wide at a multiple of 8 inside
the window is a bus error when its turn comes; every other access is performed. -/
def Obligations.OnlyAlignedWindowAccessesArePerformed : Prop :=
  ∀ (s : State) (a : BusAccess) (rest : List BusAccess), ready s → s.port = a :: rest →
    ((a.size = 8 ∧ ∃ k : Nat, k < 32 ∧ a.addr = s.params.base + 8 * k) →
      ∃ t : State, step s = .next t ∧ t.port = rest ∧ t.hash = s.hash) ∧
    (¬ (a.size = 8 ∧ ∃ k : Nat, k < 32 ∧ a.addr = s.params.base + 8 * k) →
      step s = .fault (.busError a))

/-- 60_exceptions.md R180, R185: no command stops the machine. A step never refuses, and the only fault is
the bus error of the port's oldest access, performed with no command in progress and reset released. -/
def Obligations.OnlyBusErrorsStopTheMachine : Prop :=
  (∀ (s : State) (r : Refusal), step s ≠ .refused r) ∧
  (∀ (s : State) (f : Fault), step s = .fault f →
    s.resetIn = false ∧ s.pending = none ∧ ∃ (a : BusAccess) (rest : List BusAccess),
      s.port = a :: rest ∧ f = .busError a)

/-! ## The BUSY interval -/

/-- 70_reset_and_hazards.md R213: a CMD write is accepted when no command is in progress: BUSY becomes 1 with
the word pending, legal or not; the hash state, STATUS.ERR, DATA_IN and DIGEST do not change. -/
def Obligations.CmdWriteIsAccepted : Prop :=
  ∀ (s : State) (w : Word) (rest : List BusAccess), ready s → s.port = hostWrite s.params 0x00 w :: rest →
    ∃ t : State, step s = .next t ∧ t.pending = some w ∧ busy t = true ∧ sameEngine s t ∧
      t.port = rest ∧ t.responses = .written :: s.responses ∧ t.resetIn = false

/-- 70_reset_and_hazards.md R213, 20_memory.md R62: while BUSY and not yet complete, a STATUS read at the
port's head is answered with a word whose bit 0 is 1, every other access at its head is held, and no other state
changes. (Bits 63:1 of the answer are free: the statement says nothing of them.) That a held access holds
everything behind it, a STATUS read too, is the model's own reading of R61 and R213(c) and not the rule's words
(DEDUCED: log 7); the number of waiting steps is the model's own (log 3). -/
def Obligations.BusyHoldsEveryAccessButStatusReads : Prop :=
  ∀ (s : State) (w : Word), s.resetIn = false → s.pending = some w → s.busyLeft ≠ 0 →
    ∃ t : State, step s = .next t ∧ sameEngine s t ∧ t.pending = some w ∧ t.resetIn = false ∧
      t.busyLeft = s.busyLeft - 1 ∧
      (∀ rest : List BusAccess, s.port = hostRead s.params 0x08 :: rest →
        t.port = rest ∧ ∃ v : Word, v.getLsbD 0 = true ∧ t.responses = .data v :: s.responses) ∧
      ((∀ rest : List BusAccess, s.port ≠ hostRead s.params 0x08 :: rest) →
        t.port = s.port ∧ t.responses = s.responses)

/-- 70_reset_and_hazards.md R213, R216: every accepted command completes, after a finite number of steps,
whatever STATUS reads are answered meanwhile; and its effect is the one it would have had at once. -/
def Obligations.EveryCommandCompletes : Prop :=
  ∀ (s : State) (w : Word), s.resetIn = false → s.pending = some w →
    ∃ t u : State, Host.Core.run Sys2Proof.core (s.busyLeft + 1) s = .next t ∧ t.pending = none ∧
      step { s with busyLeft := 0 } = .next u ∧ sameEngine t u

/-- 30_encoding.md R76, 20_memory.md R63, 70_reset_and_hazards.md R216: a POLL ends. From any state with
reset released and no access waiting, whatever command is in progress, some number of the loop's actions
sees STATUS with BUSY = 0, and then no command is in progress. -/
def Obligations.PollEndsWithNoCommandInProgress : Prop :=
  ∀ s : State, s.resetIn = false → s.port = [] →
    ∃ (n : Nat) (t : State), poll n false s = .next (true, t) ∧ t.pending = none ∧ t.port = []

/-! ## Invariants -/

/-- 10_state.md R41: the invariant holds after reset, whatever the parameters. -/
def Obligations.ResetMeetsTheInvariant : Prop :=
  ∀ p : Params, Inv { State.reset with params := p }

/-- 10_state.md R23, R27, 20_memory.md R58: every step keeps the invariant: BUF stays canonical with every
index in 0..127, the flags stay legal and zero until finalization, T stays a multiple of 128 until
finalization, and an empty buffer before finalization means nothing has been absorbed. -/
def Obligations.EveryStepKeepsTheInvariant : Prop :=
  ∀ s t : State, Inv s → step s = .next t → Inv t

/-- 10_state.md R23, R27: whatever its hosts and its reset input do, the engine meets the invariant, and its
parameters never change. -/
def Obligations.EveryReachableStateMeetsTheInvariant : Prop :=
  ∀ (p : Params) (s : State), Reachable p s → Inv s ∧ s.params = p

/-- 60_exceptions.md R190: an event at one engine instance leaves every other instance as it was. -/
def Obligations.InstancesShareNothing : Prop :=
  ∀ (es es' : Engines) (k j : Nat) (e : Event), reactAt k e es = some (.next es') → j ≠ k →
    es'[j]? = es[j]? ∧ es'.length = es.length

/-! ## The digest -/

/-- 42_streaming.md R148, R149: INIT, any ABSORBs and a FINAL into a large enough buffer all complete with
OK, and leave in DIGEST0..3 the digest of the bytes absorbed, as a function of those bytes and
LAST_NODE_MODE alone (chaining the message's blocks, with no buffer), whatever the chunking and whatever the
unused bytes of DATA_IN were. The digest's bytes are the little-endian bytes of those words. -/
def Obligations.CommandsComputeTheDigest : Prop :=
  ∀ (s : State) (ops : List (Word × BitVec 8)) (outlen : BitVec 8),
    (∀ o ∈ ops, o.2.toNat ≤ 8) → 32 ≤ outlen.toNat →
    ∃ t u v : State, exec .init s = .next t ∧ absorbAll ops t = .next u ∧
      exec (.final outlen) u = .next v ∧ v.err = .ok ∧ phase v.hash = .final ∧
      counter v.hash = (absorbedBytes ops).length % 2 ^ 128 ∧
      v.digest = messageDigest s.params.lastNodeMode (absorbedBytes ops) ∧
      v.digest = digestOf s.params.lastNodeMode (absorbedBytes ops) ∧
      (∀ j : Fin 32, (digestBytes v.digest)[j.val]? =
        some ((v.digest[j.val / 8]'(by omega)).extractLsb' (8 * (j.val % 8)) 8))

/-- 42_streaming.md R154: for every byte sequence and every slicing of it into pieces of at most 8 bytes,
the host sequence HASH, performed on the port with no other agent's accesses and whatever time each command
takes, ends with DIGEST0..3 holding the digest, STATUS.ERR = OK, PHASE = FINAL, and the four DIGEST reads
answered with its words. -/
def Obligations.HashMacroLeavesTheDigest : Prop :=
  ∀ (s : State) (slices : List (List Byte)), ready s → (∀ b ∈ slices, b.length ≤ 8) →
    s.port = hashSlices s.params slices →
    ∃ (n : Nat) (t : State), Host.Core.run Sys2Proof.core n s = .next t ∧
      t.port = [] ∧ t.pending = none ∧ t.err = .ok ∧ phase t.hash = .final ∧
      t.digest = digestOf s.params.lastNodeMode slices.flatten ∧
      t.responses.take 4 =
        [.data t.digest[3], .data t.digest[2], .data t.digest[1], .data t.digest[0]]

/-! ## Every event, and several engines -/

/-- 10_state.md R23, R27, 20_memory.md R58, 70_reset_and_hazards.md R210: whatever happens to an engine that
meets the invariant, an access presented, reset asserted or released, or a step, the engine meets it after, and
its parameters are the same. -/
def Obligations.EveryEventKeepsTheInvariant : Prop :=
  ∀ (s t : State) (e : Event), Inv s → react e s = .next t → Inv t ∧ t.params = s.params

/-- 60_exceptions.md R190: whatever the interleaving of events at several engines, each engine ends in the state
that its own events alone take it to; what happens at another engine never reaches it. -/
def Obligations.InstancesRunIndependently : Prop :=
  ∀ (evs : List (Nat × Event)) (es es' : Engines), runAll evs es = some (.next es') →
    es'.length = es.length ∧
    ∀ (j : Nat) (s : State), es[j]? = some s →
      ∃ t : State, runEvents (eventsOf j evs) s = .next t ∧ es'[j]? = some t

/-- 60_exceptions.md R190, 10_state.md R41: engines start in the reset state. After any events, each is in a
state that it could reach alone from reset, meets the invariant and has the parameters it was placed with; and
where no two are placed at one window, no access is inside the windows of two of them. (That an engine's number
is its place in the list is the model's own: log 14.) -/
def Obligations.EnginesStartInResetAndKeepTheirWindows : Prop :=
  ∀ (ps : List Placement) (evs : List (Nat × Event)) (es : Engines),
    runAll evs (Engines.reset ps) = some (.next es) →
    (∀ (k : Nat) (p : Placement), ps[k]? = some p →
      ∃ s : State, es[k]? = some s ∧ Reachable (p.params k) s ∧ Inv s ∧ s.params = p.params k) ∧
    ((ps.map Placement.windowIndex).Nodup →
      ∀ (j k : Nat) (s t : State) (a : BusAccess), es[j]? = some s → es[k]? = some t →
        windowOffset s.params a ≠ none → windowOffset t.params a ≠ none → j = k)
end

