-- ==== Sys2Proof/Laws/Decode.lean ====
section
/-! SUPPORT. The fields of a command word as numbers (spec 30_encoding.md R71). -/

namespace Sys2Proof

theorem opcField_toNat (w : Word) : (opcField w).toNat = w.toNat % 256 := by simp [opcField]

theorem argField_toNat (w : Word) : (argField w).toNat = w.toNat / 256 % 256 := by
  simp [argField, Nat.shiftRight_eq_div_pow]

theorem rsvField_toNat (w : Word) : (rsvField w).toNat = w.toNat / 65536 := by
  simp [rsvField, Nat.shiftRight_eq_div_pow]; omega

theorem opcField_eq_iff (w : Word) (c : BitVec 8) : opcField w = c ↔ w.toNat % 256 = c.toNat := by
  rw [← opcField_toNat]; exact BitVec.toNat_inj.symm

theorem argField_eq_iff (w : Word) (c : BitVec 8) :
    argField w = c ↔ w.toNat / 256 % 256 = c.toNat := by
  rw [← argField_toNat]; exact BitVec.toNat_inj.symm

theorem rsvField_eq_zero_iff (w : Word) : rsvField w = 0 ↔ w.toNat / 65536 = 0 := by
  rw [← rsvField_toNat]; exact BitVec.toNat_inj.symm

end Sys2Proof
end

