-- ==== Sys2Proof/Laws/State.lean ====
section
/-! SUPPORT. One lemma per field per update, so that no later proof unfolds a record update. -/

namespace Sys2Proof.Machine

/-! Completion of a command, and raising an error. -/

@[simp] theorem complete_params (c : ErrCode) (s : State) : (complete c s).params = s.params := rfl
@[simp] theorem complete_hash (c : ErrCode) (s : State) : (complete c s).hash = s.hash := rfl
@[simp] theorem complete_err (c : ErrCode) (s : State) : (complete c s).err = c := rfl
@[simp] theorem complete_dataIn (c : ErrCode) (s : State) : (complete c s).dataIn = s.dataIn := rfl
@[simp] theorem complete_digest (c : ErrCode) (s : State) : (complete c s).digest = s.digest := rfl
@[simp] theorem complete_pending (c : ErrCode) (s : State) : (complete c s).pending = none := rfl
@[simp] theorem complete_resetIn (c : ErrCode) (s : State) : (complete c s).resetIn = s.resetIn := rfl
@[simp] theorem complete_busyLeft (c : ErrCode) (s : State) : (complete c s).busyLeft = 0 := rfl
@[simp] theorem complete_draws (c : ErrCode) (s : State) : (complete c s).draws = s.draws := rfl
@[simp] theorem complete_port (c : ErrCode) (s : State) : (complete c s).port = s.port := rfl
@[simp] theorem complete_responses (c : ErrCode) (s : State) :
    (complete c s).responses = s.responses := rfl

/-- R11: raising an error is a completion that writes only STATUS.ERR. -/
@[simp] theorem raiseError_eq_complete (c : ErrCode) (s : State) : raiseError c s = complete c s := rfl
@[simp] theorem completeIllegal_eq_complete (s : State) : completeIllegal s = complete .illegalCmd s := rfl

/-! State initialization. -/

@[simp] theorem initState_hash (s : State) : (initState s).hash = HashState.initial := rfl
@[simp] theorem initState_params (s : State) : (initState s).params = s.params := rfl
@[simp] theorem initState_err (s : State) : (initState s).err = s.err := rfl
@[simp] theorem initState_dataIn (s : State) : (initState s).dataIn = s.dataIn := rfl
@[simp] theorem initState_digest (s : State) : (initState s).digest = s.digest := rfl
@[simp] theorem initState_pending (s : State) : (initState s).pending = s.pending := rfl
@[simp] theorem initState_resetIn (s : State) : (initState s).resetIn = s.resetIn := rfl
@[simp] theorem initState_busyLeft (s : State) : (initState s).busyLeft = s.busyLeft := rfl
@[simp] theorem initState_draws (s : State) : (initState s).draws = s.draws := rfl
@[simp] theorem initState_port (s : State) : (initState s).port = s.port := rfl
@[simp] theorem initState_responses (s : State) : (initState s).responses = s.responses := rfl

@[simp] theorem initial_h : HashState.initial.h = hInit := rfl
@[simp] theorem initial_t0 : HashState.initial.t0 = 0 := rfl
@[simp] theorem initial_t1 : HashState.initial.t1 = 0 := rfl
@[simp] theorem initial_f0 : HashState.initial.f0 = 0 := rfl
@[simp] theorem initial_f1 : HashState.initial.f1 = 0 := rfl
@[simp] theorem initial_buf : HashState.initial.buf = [] := rfl
@[simp] theorem initial_bufLen : HashState.initial.bufLen = 0 := rfl

/-! The port's responses. -/

@[simp] theorem respond_params (r : Response) (s : State) : (respond r s).params = s.params := rfl
@[simp] theorem respond_hash (r : Response) (s : State) : (respond r s).hash = s.hash := rfl
@[simp] theorem respond_err (r : Response) (s : State) : (respond r s).err = s.err := rfl
@[simp] theorem respond_dataIn (r : Response) (s : State) : (respond r s).dataIn = s.dataIn := rfl
@[simp] theorem respond_digest (r : Response) (s : State) : (respond r s).digest = s.digest := rfl
@[simp] theorem respond_pending (r : Response) (s : State) : (respond r s).pending = s.pending := rfl
@[simp] theorem respond_resetIn (r : Response) (s : State) : (respond r s).resetIn = s.resetIn := rfl
@[simp] theorem respond_busyLeft (r : Response) (s : State) : (respond r s).busyLeft = s.busyLeft := rfl
@[simp] theorem respond_draws (r : Response) (s : State) : (respond r s).draws = s.draws := rfl
@[simp] theorem respond_port (r : Response) (s : State) : (respond r s).port = s.port := rfl
@[simp] theorem respond_responses (r : Response) (s : State) :
    (respond r s).responses = r :: s.responses := rfl

/-! Acceptance of a command word. -/

@[simp] theorem acceptCommand_params (w : Word) (s : State) : (acceptCommand w s).params = s.params := rfl
@[simp] theorem acceptCommand_hash (w : Word) (s : State) : (acceptCommand w s).hash = s.hash := rfl
@[simp] theorem acceptCommand_err (w : Word) (s : State) : (acceptCommand w s).err = s.err := rfl
@[simp] theorem acceptCommand_dataIn (w : Word) (s : State) : (acceptCommand w s).dataIn = s.dataIn := rfl
@[simp] theorem acceptCommand_digest (w : Word) (s : State) : (acceptCommand w s).digest = s.digest := rfl
@[simp] theorem acceptCommand_pending (w : Word) (s : State) :
    (acceptCommand w s).pending = some w := rfl
@[simp] theorem acceptCommand_resetIn (w : Word) (s : State) :
    (acceptCommand w s).resetIn = s.resetIn := rfl
@[simp] theorem acceptCommand_busyLeft (w : Word) (s : State) :
    (acceptCommand w s).busyLeft = Config.latency s.params.engineNumber s.draws := rfl
@[simp] theorem acceptCommand_draws (w : Word) (s : State) : (acceptCommand w s).draws = s.draws + 1 := rfl
@[simp] theorem acceptCommand_port (w : Word) (s : State) : (acceptCommand w s).port = s.port := rfl
@[simp] theorem acceptCommand_responses (w : Word) (s : State) :
    (acceptCommand w s).responses = s.responses := rfl

/-! Reset. -/

@[simp] theorem applyReset_params (s : State) : (applyReset s).params = s.params := rfl
@[simp] theorem applyReset_hash (s : State) : (applyReset s).hash = HashState.initial := rfl
@[simp] theorem applyReset_err (s : State) : (applyReset s).err = .ok := rfl
@[simp] theorem applyReset_dataIn (s : State) : (applyReset s).dataIn = 0 := rfl
@[simp] theorem applyReset_digest (s : State) : (applyReset s).digest = Vector.replicate 4 0 := rfl
@[simp] theorem applyReset_pending (s : State) : (applyReset s).pending = none := rfl
@[simp] theorem applyReset_resetIn (s : State) : (applyReset s).resetIn = s.resetIn := rfl
@[simp] theorem applyReset_busyLeft (s : State) : (applyReset s).busyLeft = 0 := rfl
@[simp] theorem applyReset_draws (s : State) : (applyReset s).draws = s.draws := rfl
@[simp] theorem applyReset_port (s : State) : (applyReset s).port = s.port := rfl
@[simp] theorem applyReset_responses (s : State) : (applyReset s).responses = s.responses := rfl

/-- Applying reset twice is applying it once. -/
@[simp] theorem applyReset_applyReset (s : State) : applyReset (applyReset s) = applyReset s := rfl

/-! Placing a command word. -/

@[simp] theorem placeCommand_params (w : Word) (s : State) : (placeCommand w s).params = s.params := rfl
@[simp] theorem placeCommand_hash (w : Word) (s : State) : (placeCommand w s).hash = s.hash := rfl
@[simp] theorem placeCommand_dataIn (w : Word) (s : State) : (placeCommand w s).dataIn = s.dataIn := rfl
@[simp] theorem placeCommand_digest (w : Word) (s : State) : (placeCommand w s).digest = s.digest := rfl
@[simp] theorem placeCommand_pending (w : Word) (s : State) : (placeCommand w s).pending = some w := rfl
@[simp] theorem placeCommand_resetIn (w : Word) (s : State) : (placeCommand w s).resetIn = false := rfl
@[simp] theorem placeCommand_busyLeft (w : Word) (s : State) : (placeCommand w s).busyLeft = 0 := rfl

end Sys2Proof.Machine
end

