-- ==== Sys2Proof/Laws/Instances.lean ====
section
/-! SUPPORT. Several engines: all that an event at one of them can do (spec 60_exceptions.md R190). -/

namespace Sys2Proof.Machine

/-- An event at an instance that answers a family: the instance reacts, the others stay. -/
theorem reactAt_eq_next {k : Nat} {e : Event} {es es' : Engines} :
    reactAt k e es = some (.next es') ↔
      ∃ s t, es[k]? = some s ∧ react e s = .next t ∧ es' = es.set k t := by
  simp only [reactAt]
  cases es[k]? with
  | none => simp
  | some s => cases h : react e s <;> simp [h, eq_comm]

/-- The first event of a sequence that runs through. -/
theorem runAll_cons {ev : Nat × Event} {evs : List (Nat × Event)} {es es' : Engines} :
    runAll (ev :: evs) es = some (.next es') ↔
      ∃ es1, reactAt ev.1 ev.2 es = some (.next es1) ∧ runAll evs es1 = some (.next es') := by
  rw [runAll]
  cases reactAt ev.1 ev.2 es with
  | none => simp
  | some o => cases o <;> simp

/-- The first event of an engine's own sequence that runs through. -/
theorem runEvents_cons {e : Event} {evs : List Event} {s t : State} :
    runEvents (e :: evs) s = .next t ↔ ∃ s1, react e s = .next s1 ∧ runEvents evs s1 = .next t := by
  rw [runEvents]
  cases react e s <;> simp

@[simp] theorem eventsOf_nil (j : Nat) : eventsOf j [] = [] := rfl

theorem eventsOf_cons (j : Nat) (ev : Nat × Event) (evs : List (Nat × Event)) :
    eventsOf j (ev :: evs) = if ev.1 = j then ev.2 :: eventsOf j evs else eventsOf j evs := by
  by_cases h : ev.1 = j <;> simp [eventsOf, h]

@[simp] theorem engines_reset_length (ps : List Placement) : (Engines.reset ps).length = ps.length := by
  simp [Engines.reset]

/-- R190, R41: the engine at place `k` starts in the reset state, with the parameters of its placement. -/
theorem engines_reset_getElem? {ps : List Placement} {k : Nat} {p : Placement} (h : ps[k]? = some p) :
    (Engines.reset ps)[k]? = some { State.reset with params := p.params k } := by
  simp [Engines.reset, h]

/-- R6: an access inside a window is at an address of that window's 256-byte slot. -/
theorem windowIndex_of_windowOffset {p : Params} {a : BusAccess} (h : windowOffset p a ≠ none) :
    a.addr / 256 = p.windowIndex := by
  by_contra hne
  refine h (if_neg ?_)
  simp only [Params.base, accessBytes, windowBytes]
  omega

end Sys2Proof.Machine
end

