-- ==== Sys2Proof/Laws/Memory.lean ====
section
/-! SUPPORT. Laws of the block buffer: reading after writing, the canonical form kept by every operation,
and equality of canonical buffers by their bytes (spec 20_memory.md R58). -/

namespace Sys2Proof.Machine

namespace Memory

theorem wf_nil : wf [] := ⟨List.Pairwise.nil, by simp⟩

theorem wf_tail {c : Host.Cell} {m : Memory} (h : wf (c :: m)) : wf m :=
  ⟨h.1.of_cons, fun d hd => h.2 d (List.mem_cons_of_mem _ hd)⟩

/-- An index below every listed index reads as unlisted. -/
theorem read_of_lt {a : Nat} {m : Memory} (h : ∀ c ∈ m, a < c.1) : read a m = unlisted := by
  induction m with
  | nil => rfl
  | cons c m ih =>
    obtain ⟨k, v⟩ := c
    have hk : a < k := h (k, v) (by simp)
    simp only [read]
    rw [if_neg (by omega)]
    exact ih fun d hd => h d (List.mem_cons_of_mem _ hd)

theorem read_tail_head {k : Nat} {v : Byte} {m : Memory}
    (h : List.Pairwise (fun c d : Host.Cell => c.1 < d.1) ((k, v) :: m)) {a : Nat} (ha : a ≤ k) :
    read a m = unlisted :=
  read_of_lt fun _ hc => Nat.lt_of_le_of_lt ha (List.rel_of_pairwise_cons h hc)

/-- Reading after one write, on a buffer whose indices rise. -/
theorem read_write {m : Memory} (h : List.Pairwise (fun c d : Host.Cell => c.1 < d.1) m)
    (a : Nat) (b : Byte) (i : Nat) : read i (write a b m) = if i = a then b else read i m := by
  induction m with
  | nil =>
    by_cases hb : b = unlisted <;> by_cases hi : i = a
    · simp [write, read, hb]
    · simp [write, read, hb]
    · simp [write, read, hb, hi]
    · simp [write, read, hb, hi, Ne.symm hi]
  | cons c m ih =>
    obtain ⟨k, v⟩ := c
    simp only [write]
    by_cases hlt : a < k
    · simp only [hlt, if_true]
      by_cases hb : b = unlisted
      · simp only [hb, if_true]
        by_cases hi : i = a
        · subst hi
          simp [read, Nat.ne_of_gt hlt, read_tail_head h (Nat.le_of_lt hlt)]
        · simp [hi]
      · simp only [hb, if_false]
        by_cases hi : i = a
        · simp [read, hi]
        · simp [read, hi, Ne.symm hi]
    · simp only [hlt, if_false]
      by_cases hk : a = k
      · subst hk
        simp only [if_true]
        by_cases hb : b = unlisted
        · simp only [hb, if_true]
          by_cases hi : i = a
          · subst hi; simp [read_tail_head h (Nat.le_refl _)]
          · simp [read, hi, Ne.symm hi]
        · simp only [hb, if_false]
          by_cases hi : i = a
          · simp [read, hi]
          · simp [read, hi, Ne.symm hi]
      · simp only [hk, if_false, read, ih h.of_cons]
        by_cases hi : i = a
        · subst hi; simp [Ne.symm hk]
        · simp [hi]

/-- A write lists no index but its own and those already listed. -/
theorem mem_write {m : Memory} {a : Nat} {b : Byte} {c : Host.Cell} (h : c ∈ write a b m) :
    (c = (a, b) ∧ b ≠ unlisted) ∨ c ∈ m := by
  induction m with
  | nil =>
    by_cases hb : b = unlisted
    · simp [write, hb] at h
    · simp [write, hb] at h; exact .inl ⟨h, hb⟩
  | cons d m ih =>
    obtain ⟨k, v⟩ := d
    simp only [write] at h
    split at h
    · split at h
      · exact .inr h
      · rename_i hb
        rcases List.mem_cons.1 h with rfl | h
        · exact .inl ⟨rfl, hb⟩
        · exact .inr h
    · split at h
      · split at h
        · exact .inr (List.mem_cons_of_mem _ h)
        · rename_i hb
          rcases List.mem_cons.1 h with rfl | h
          · exact .inl ⟨rfl, hb⟩
          · exact .inr (List.mem_cons_of_mem _ h)
      · rcases List.mem_cons.1 h with rfl | h
        · exact .inr (by simp)
        · rcases ih h with h | h
          · exact .inl h
          · exact .inr (List.mem_cons_of_mem _ h)

/-- A write keeps the indices rising. -/
theorem write_sorted {m : Memory} (h : List.Pairwise (fun c d : Host.Cell => c.1 < d.1) m)
    (a : Nat) (b : Byte) : List.Pairwise (fun c d : Host.Cell => c.1 < d.1) (write a b m) := by
  induction m with
  | nil => by_cases hb : b = unlisted <;> simp [write, hb]
  | cons d m ih =>
    obtain ⟨k, v⟩ := d
    have hm : ∀ c ∈ m, k < c.1 := fun c hc => List.rel_of_pairwise_cons h hc
    simp only [write]
    split
    · rename_i hlt
      split
      · exact h
      · refine List.Pairwise.cons ?_ h
        intro c hc
        rcases List.mem_cons.1 hc with rfl | hc
        · exact hlt
        · exact Nat.lt_trans hlt (hm c hc)
    · rename_i hlt
      split
      · rename_i heq
        split
        · exact h.of_cons
        · exact List.Pairwise.cons (fun c hc => heq ▸ hm c hc) h.of_cons
      · rename_i hne
        refine List.Pairwise.cons ?_ (ih h.of_cons)
        intro c hc
        rcases mem_write hc with ⟨rfl, _⟩ | hc
        · show k < a; omega
        · exact hm c hc

/-- R58: a write inside BUF keeps the canonical form. -/
theorem write_wf {m : Memory} (h : wf m) {a : Nat} (ha : a < 128) (b : Byte) : wf (write a b m) := by
  refine ⟨write_sorted h.1 a b, fun c hc => ?_⟩
  rcases mem_write hc with ⟨rfl, hb⟩ | hc
  · exact ⟨ha, hb⟩
  · exact h.2 c hc

/-- Canonical buffers with the same bytes are the same list. -/
theorem ext {m n : Memory} (hm : wf m) (hn : wf n) (h : ∀ a, read a m = read a n) : m = n := by
  induction m generalizing n with
  | nil =>
    cases n with
    | nil => rfl
    | cons d n =>
      have := h d.1
      simp [read] at this
      exact absurd this.symm (hn.2 d (by simp)).2
  | cons c m ih =>
    obtain ⟨k, v⟩ := c
    have hv : v ≠ unlisted := (hm.2 (k, v) (by simp)).2
    cases n with
    | nil =>
      have := h k
      simp [read] at this
      exact absurd this hv
    | cons d n =>
      obtain ⟨l, w⟩ := d
      have hw : w ≠ unlisted := (hn.2 (l, w) (by simp)).2
      have hkl : k = l := by
        rcases Nat.lt_trichotomy k l with hlt | heq | hgt
        · have := h k
          simp [read, Nat.ne_of_gt hlt, read_tail_head hn.1 (Nat.le_of_lt hlt)] at this
          exact absurd this hv
        · exact heq
        · have := h l
          simp [read, Nat.ne_of_gt hgt, read_tail_head hm.1 (Nat.le_of_lt hgt)] at this
          exact absurd this.symm hw
      subst hkl
      have hvw : v = w := by have := h k; simpa [read] using this
      subst hvw
      have : m = n := by
        refine ih (wf_tail hm) (wf_tail hn) fun a => ?_
        by_cases ha : k = a
        · subst ha
          rw [read_tail_head hm.1 (Nat.le_refl _), read_tail_head hn.1 (Nat.le_refl _)]
        · have := h a
          simpa [read, ha] using this
      rw [this]

end Memory

/-- `bufWriteAll` keeps the indices rising. -/
theorem bufWriteAll_sorted {m : Memory} (h : List.Pairwise (fun c d : Host.Cell => c.1 < d.1) m)
    (a : Nat) (data : List Byte) :
    List.Pairwise (fun c d : Host.Cell => c.1 < d.1) (bufWriteAll a data m) := by
  induction data generalizing a m with
  | nil => exact h
  | cons b data ih => exact ih (Memory.write_sorted h a b) (a + 1)

/-- What each index reads after `bufWriteAll`: the bytes written at `a, a+1, ...`, and nothing else
changed. -/
theorem read_bufWriteAll {m : Memory} (h : List.Pairwise (fun c d : Host.Cell => c.1 < d.1) m)
    (a : Nat) (data : List Byte) (i : Nat) :
    Memory.read i (bufWriteAll a data m) =
      if a ≤ i then data.getD (i - a) (Memory.read i m) else Memory.read i m := by
  induction data generalizing a m with
  | nil => simp [bufWriteAll]
  | cons b data ih =>
    simp only [bufWriteAll]
    rw [ih (Memory.write_sorted h a b), Memory.read_write h]
    by_cases hlt : a + 1 ≤ i
    · have h1 : a ≤ i := by omega
      have h2 : i ≠ a := by omega
      have h3 : i - a = (i - (a + 1)) + 1 := by omega
      simp [hlt, h1, h2, h3]
    · by_cases heq : i = a
      · subst heq; simp
      · have h1 : ¬ a ≤ i := by omega
        simp [hlt, h1, heq]

/-- R58: writes that stay inside BUF keep the canonical form. -/
theorem bufWriteAll_wf {m : Memory} (h : Memory.wf m) {a : Nat} {data : List Byte}
    (ha : a + data.length ≤ 128) : Memory.wf (bufWriteAll a data m) := by
  induction data generalizing a m with
  | nil => exact h
  | cons b data ih =>
    simp only [List.length_cons] at ha
    exact ih (Memory.write_wf h (by omega) b) (by omega)

/-- R58: padding keeps the canonical form. -/
theorem bufPad_wf {m : Memory} (h : Memory.wf m) {k : Nat} (hk : k ≤ 128) :
    Memory.wf (bufPad k m) :=
  bufWriteAll_wf h (by simp [blockBytes]; omega)

/-- R58: `BufPad(k)` zeroes the indices k ≤ j < 128 and changes nothing else. -/
theorem read_bufPad {m : Memory} (h : List.Pairwise (fun c d : Host.Cell => c.1 < d.1) m) (k i : Nat) :
    Memory.read i (bufPad k m) = if k ≤ i ∧ i < 128 then 0 else Memory.read i m := by
  rw [bufPad, read_bufWriteAll h]
  by_cases h1 : k ≤ i
  · by_cases h2 : i < 128
    · have : i - k < 128 - k := by omega
      simp [h1, h2, blockBytes, List.getD, this]
    · have : ¬ i - k < 128 - k := by omega
      simp [h1, h2, blockBytes, List.getD, this]
  · simp [h1]

@[simp] theorem bufBlock_length (m : Memory) : (bufBlock m).length = 128 := by simp [bufBlock, blockBytes]

theorem getElem_bufBlock (m : Memory) (j : Nat) (h : j < (bufBlock m).length) :
    (bufBlock m)[j] = Memory.read j m := by simp [bufBlock]

/-- The block is determined by the bytes of indices 0..127. -/
theorem bufBlock_congr {m n : Memory} (h : ∀ j < 128, Memory.read j m = Memory.read j n) :
    bufBlock m = bufBlock n :=
  List.map_congr_left fun j hj => h j (by simpa [blockBytes] using hj)

end Sys2Proof.Machine
end

