-- ==== Sys2Proof/Laws/PerInstr.lean ====
section
/-! SUPPORT. Facts about every instruction as syntax, one lemma per constructor. -/

namespace Sys2Proof.Laws

/-- The opcode table's row of an instruction: its mask. -/
def rowMask : Instr → Word
  | .init => 0xFFFFFFFFFFFFFFFF
  | .absorb _ => 0xFFFFFFFFFFFF00FF
  | .final _ => 0xFFFFFFFFFFFF00FF

/-- The opcode table's row of an instruction: its match value. -/
def rowMatch : Instr → Word
  | .init => 0x0000000000000001
  | .absorb _ => 0x0000000000000002
  | .final _ => 0x0000000000000003

/-- The ARG field an instruction's row gives its operand. -/
def rowArg : Instr → BitVec 8
  | .init => 0
  | .absorb len => len
  | .final outlen => outlen

/-- The encoded word has the fixed bits of the opcode table's row and the operand in the ARG bits. -/
def TableRow.Statement (i : Instr) : Prop :=
  encode i &&& rowMask i = rowMatch i ∧ argField (encode i) = rowArg i

theorem TableRow.init : TableRow.Statement .init := ⟨by decide, by decide⟩

theorem TableRow.absorb (len : BitVec 8) : TableRow.Statement (.absorb len) := by
  revert len; unfold TableRow.Statement; decide +kernel

theorem TableRow.final (outlen : BitVec 8) : TableRow.Statement (.final outlen) := by
  revert outlen; unfold TableRow.Statement; decide +kernel

end Sys2Proof.Laws
end

