-- ==== Sys2Proof/Laws/Streaming.lean ====
section
/-! SUPPORT. What the streaming engine's operations write, field by field (spec 42_streaming.md R140, R141,
R145; 41_compression.md R118). -/

namespace Sys2Proof.Machine

/-! R140: the counter increment writes T0 and T1 only. -/

@[simp] theorem incrementCounter_h (n : Nat) (x : HashState) : (incrementCounter n x).h = x.h := rfl
@[simp] theorem incrementCounter_f0 (n : Nat) (x : HashState) : (incrementCounter n x).f0 = x.f0 := rfl
@[simp] theorem incrementCounter_f1 (n : Nat) (x : HashState) : (incrementCounter n x).f1 = x.f1 := rfl
@[simp] theorem incrementCounter_buf (n : Nat) (x : HashState) : (incrementCounter n x).buf = x.buf := rfl
@[simp] theorem incrementCounter_bufLen (n : Nat) (x : HashState) :
    (incrementCounter n x).bufLen = x.bufLen := rfl

/-! R118: a compression writes H only. -/

@[simp] theorem compressBlock_h (b : List Byte) (x : HashState) :
    (compressBlock b x).h = compress x.h x.t0 x.t1 x.f0 x.f1 b := rfl
@[simp] theorem compressBlock_t0 (b : List Byte) (x : HashState) : (compressBlock b x).t0 = x.t0 := rfl
@[simp] theorem compressBlock_t1 (b : List Byte) (x : HashState) : (compressBlock b x).t1 = x.t1 := rfl
@[simp] theorem compressBlock_f0 (b : List Byte) (x : HashState) : (compressBlock b x).f0 = x.f0 := rfl
@[simp] theorem compressBlock_f1 (b : List Byte) (x : HashState) : (compressBlock b x).f1 = x.f1 := rfl
@[simp] theorem compressBlock_buf (b : List Byte) (x : HashState) : (compressBlock b x).buf = x.buf := rfl
@[simp] theorem compressBlock_bufLen (b : List Byte) (x : HashState) :
    (compressBlock b x).bufLen = x.bufLen := rfl

@[simp] theorem absorbBlock_f0 (b : List Byte) (x : HashState) : (absorbBlock b x).f0 = x.f0 := rfl
@[simp] theorem absorbBlock_f1 (b : List Byte) (x : HashState) : (absorbBlock b x).f1 = x.f1 := rfl
@[simp] theorem absorbBlock_buf (b : List Byte) (x : HashState) : (absorbBlock b x).buf = x.buf := rfl
@[simp] theorem absorbBlock_bufLen (b : List Byte) (x : HashState) :
    (absorbBlock b x).bufLen = x.bufLen := rfl

/-! R141: copying into the buffer writes BUF and BUFLEN only. -/

@[simp] theorem bufAppend_h (d : List Byte) (x : HashState) : (bufAppend d x).h = x.h := rfl
@[simp] theorem bufAppend_t0 (d : List Byte) (x : HashState) : (bufAppend d x).t0 = x.t0 := rfl
@[simp] theorem bufAppend_t1 (d : List Byte) (x : HashState) : (bufAppend d x).t1 = x.t1 := rfl
@[simp] theorem bufAppend_f0 (d : List Byte) (x : HashState) : (bufAppend d x).f0 = x.f0 := rfl
@[simp] theorem bufAppend_f1 (d : List Byte) (x : HashState) : (bufAppend d x).f1 = x.f1 := rfl
@[simp] theorem bufAppend_buf (d : List Byte) (x : HashState) :
    (bufAppend d x).buf = bufWriteAll x.bufLen d x.buf := rfl

/-- R58: where the bytes fit, BUFLEN grows by their number. -/
theorem bufAppend_bufLen {d : List Byte} {x : HashState} (h : x.bufLen + d.length ≤ 128) :
    (bufAppend d x).bufLen.val = x.bufLen + d.length :=
  Nat.mod_eq_of_lt (by omega)

@[simp] theorem bufTopOff_h (d : List Byte) (x : HashState) : (bufTopOff d x).h = x.h := rfl
@[simp] theorem bufTopOff_t0 (d : List Byte) (x : HashState) : (bufTopOff d x).t0 = x.t0 := rfl
@[simp] theorem bufTopOff_t1 (d : List Byte) (x : HashState) : (bufTopOff d x).t1 = x.t1 := rfl
@[simp] theorem bufTopOff_f0 (d : List Byte) (x : HashState) : (bufTopOff d x).f0 = x.f0 := rfl
@[simp] theorem bufTopOff_f1 (d : List Byte) (x : HashState) : (bufTopOff d x).f1 = x.f1 := rfl
@[simp] theorem bufTopOff_bufLen (d : List Byte) (x : HashState) : (bufTopOff d x).bufLen = 0 := rfl
@[simp] theorem bufTopOff_buf (d : List Byte) (x : HashState) :
    (bufTopOff d x).buf = bufWriteAll x.bufLen d x.buf := rfl

/-! R141: the loop writes neither the flags nor the buffer, and leaves at most one block of bytes. -/

theorem absorbWhole_keeps (fuel : Nat) (d : List Byte) (x : HashState) :
    (absorbWhole fuel d x).2.f0 = x.f0 ∧ (absorbWhole fuel d x).2.f1 = x.f1 ∧
    (absorbWhole fuel d x).2.buf = x.buf ∧ (absorbWhole fuel d x).2.bufLen = x.bufLen := by
  induction fuel generalizing d x with
  | zero => exact ⟨rfl, rfl, rfl, rfl⟩
  | succ n ih =>
    simp only [absorbWhole]
    split
    · obtain ⟨h1, h2, h3, h4⟩ := ih (d.drop blockBytes) (absorbBlock (d.take blockBytes) x)
      exact ⟨h1, h2, h3, h4⟩
    · exact ⟨rfl, rfl, rfl, rfl⟩

theorem absorbWhole_rest_length {fuel : Nat} {d : List Byte} (x : HashState) (h : d.length ≤ fuel) :
    (absorbWhole fuel d x).1.length ≤ 128 := by
  induction fuel generalizing d x with
  | zero =>
    have : d = [] := List.length_eq_zero_iff.1 (by omega)
    subst this; simp [absorbWhole]
  | succ n ih =>
    simp only [absorbWhole]
    split
    · exact ih _ (by simp [blockBytes] at *; omega)
    · rename_i hlen; simp only [blockBytes] at hlen; simpa using hlen

/-- A run of at most one block is not compressed by the loop. -/
theorem absorbWhole_of_le {fuel : Nat} {d : List Byte} {x : HashState} (h : d.length ≤ 128) :
    absorbWhole fuel d x = (d, x) := by
  cases fuel with
  | zero => rfl
  | succ n => simp [absorbWhole, blockBytes, Nat.not_lt.2 h]

/-! R141: `Update`. -/

@[simp] theorem update_nil (x : HashState) : update [] x = x := rfl

/-- Data that fits behind the valid bytes is only copied. -/
theorem update_of_fits {d : List Byte} {x : HashState} (hd : d ≠ [])
    (h : x.bufLen + d.length ≤ 128) : update d x = bufAppend d x := by
  have : d.length ≠ 0 := by simpa using hd
  rw [update, if_neg this]
  simp only [blockBytes]
  rw [if_neg (by omega)]

/-- Data that does not fit tops the buffer off, compresses it, consumes whole blocks while more than one
block remains, and buffers the rest. -/
theorem update_of_exceeds {d : List Byte} {x : HashState} (h : 128 < x.bufLen + d.length) :
    update d x =
      (let y := bufTopOff (d.take (128 - x.bufLen)) x
       let r := absorbWhole (d.drop (128 - x.bufLen)).length (d.drop (128 - x.bufLen))
         (absorbBlock (bufBlock y.buf) y)
       bufAppend r.1 r.2) := by
  have hx : x.bufLen.val ≤ 128 := by omega
  have hd : d.length ≠ 0 := by omega
  rw [update, if_neg hd]
  simp only [blockBytes]
  rw [if_pos (by omega)]

/-- R141: `Update` never writes F0 or F1. -/
theorem update_flags (d : List Byte) (x : HashState) :
    (update d x).f0 = x.f0 ∧ (update d x).f1 = x.f1 := by
  by_cases hd : d = []
  · subst hd; simp
  · by_cases h : x.bufLen + d.length ≤ 128
    · simp [update_of_fits hd h]
    · rw [update_of_exceeds (by omega)]
      have := absorbWhole_keeps (d.drop (128 - x.bufLen)).length (d.drop (128 - x.bufLen))
        (absorbBlock (bufBlock (bufTopOff (d.take (128 - x.bufLen)) x).buf)
          (bufTopOff (d.take (128 - x.bufLen)) x))
      exact ⟨this.1, this.2.1⟩

/-! R145: `Finalize`. -/

@[simp] theorem finalize_f0 (m : LastNodeMode) (x : HashState) : (finalize m x).f0 = ones64 := rfl
@[simp] theorem finalize_f1 (m : LastNodeMode) (x : HashState) : (finalize m x).f1 = lastNodeFlag m := rfl
@[simp] theorem finalize_bufLen (m : LastNodeMode) (x : HashState) : (finalize m x).bufLen = x.bufLen := rfl
@[simp] theorem finalize_buf (m : LastNodeMode) (x : HashState) :
    (finalize m x).buf = bufPad x.bufLen x.buf := rfl
@[simp] theorem finalize_t0 (m : LastNodeMode) (x : HashState) :
    (finalize m x).t0 = (incrementCounter x.bufLen x).t0 := rfl
@[simp] theorem finalize_t1 (m : LastNodeMode) (x : HashState) :
    (finalize m x).t1 = (incrementCounter x.bufLen x).t1 := rfl
@[simp] theorem finalize_h (m : LastNodeMode) (x : HashState) :
    (finalize m x).h = compress x.h (incrementCounter x.bufLen x).t0 (incrementCounter x.bufLen x).t1
      ones64 (lastNodeFlag m) (bufBlock (bufPad x.bufLen x.buf)) := rfl

/-- The digest words depend on H alone. -/
theorem digestWords_congr {x y : HashState} (h : x.h = y.h) : digestWords x = digestWords y := by
  rw [digestWords, digestWords, h]

@[simp] theorem getElem_digestOfChain (h : Vector Word 8) (k : Nat) (hk : k < 4) :
    (digestOfChain h)[k] = h[k] := by simp [digestOfChain]

end Sys2Proof.Machine
end

