-- ==== Sys2Proof/Laws/Step.lean ====
section
/-! SUPPORT. Say once what a command and a step can do; later proofs cite these instead of unfolding. -/

namespace Sys2Proof.Machine

/-! The arms of exec. -/

@[simp] theorem exec_init (s : State) : exec .init s = execInit s := rfl
@[simp] theorem exec_absorb (len : BitVec 8) (s : State) : exec (.absorb len) s = execAbsorb len s := rfl
@[simp] theorem exec_final (n : BitVec 8) (s : State) : exec (.final n) s = execFinal n s := rfl

/-- R150: all that INIT does. -/
theorem execInit_eq (s : State) : execInit s = .next (complete .ok (initState s)) := rfl

/-- R146. -/
theorem finalized_of_ne {x : HashState} (h : x.f0 ≠ 0) : finalized x = true := bne_iff_ne.2 h

/-- R146. -/
theorem finalized_of_eq {x : HashState} (h : x.f0 = 0) : finalized x = false := by
  rw [finalized, h]; rfl

/-- R182(1): an ABSORB of more than 8 bytes raises ILLEGAL_CMD. -/
theorem execAbsorb_illegal {len : BitVec 8} {s : State} (h : 8 < len.toNat) :
    execAbsorb len s = .next (complete .illegalCmd s) := by
  simp [execAbsorb, argCount, h]

/-- R151: an ABSORB past finalization raises ALREADY_FINALIZED. -/
theorem execAbsorb_finalized {len : BitVec 8} {s : State} (h : len.toNat ≤ 8) (hf : s.hash.f0 ≠ 0) :
    execAbsorb len s = .next (complete .alreadyFinalized s) := by
  simp [execAbsorb, argCount, Nat.not_lt.2 h, finalized_of_ne hf]

/-- R151: an ABSORB that raises no error performs Update and completes. -/
theorem execAbsorb_ok {len : BitVec 8} {s : State} (h : len.toNat ≤ 8) (hf : s.hash.f0 = 0) :
    execAbsorb len s =
      .next (complete .ok { s with hash := update (operandBytes len s.dataIn) s.hash }) := by
  simp [execAbsorb, argCount, Nat.not_lt.2 h, finalized_of_eq hf]

/-- R152: a FINAL into a buffer of fewer than 32 bytes raises INVALID_OUTPUT_BUFFER. -/
theorem execFinal_small {n : BitVec 8} {s : State} (h : n.toNat < 32) :
    execFinal n s = .next (complete .invalidOutputBuffer s) := by
  simp [execFinal, argCount, digestLength, h]

/-- R152: a FINAL past finalization raises ALREADY_FINALIZED. -/
theorem execFinal_finalized {n : BitVec 8} {s : State} (h : 32 ≤ n.toNat) (hf : s.hash.f0 ≠ 0) :
    execFinal n s = .next (complete .alreadyFinalized s) := by
  simp [execFinal, argCount, digestLength, Nat.not_lt.2 h, finalized_of_ne hf]

/-- R152: a FINAL that raises no error performs Finalize and completes. -/
theorem execFinal_ok {n : BitVec 8} {s : State} (h : 32 ≤ n.toNat) (hf : s.hash.f0 = 0) :
    execFinal n s =
      .next (complete .ok
        { s with hash := finalize s.params.lastNodeMode s.hash,
                 digest := digestWords (finalize s.params.lastNodeMode s.hash) }) := by
  simp [execFinal, argCount, digestLength, Nat.not_lt.2 h, finalized_of_eq hf]

/-- Everything a command can do: complete with an error code and no other write, or initialize, absorb, or
finalize with no error. -/
theorem exec_cases (i : Instr) (s : State) :
    (∃ c, c ≠ .ok ∧ exec i s = .next (complete c s)) ∨
    (i = .init ∧ exec i s = .next (complete .ok (initState s))) ∨
    (∃ len : BitVec 8, i = .absorb len ∧ len.toNat ≤ 8 ∧ s.hash.f0 = 0 ∧
      exec i s = .next (complete .ok { s with hash := update (operandBytes len s.dataIn) s.hash })) ∨
    (∃ n : BitVec 8, i = .final n ∧ 32 ≤ n.toNat ∧ s.hash.f0 = 0 ∧
      exec i s = .next (complete .ok
        { s with hash := finalize s.params.lastNodeMode s.hash,
                 digest := digestWords (finalize s.params.lastNodeMode s.hash) })) := by
  cases i with
  | init => exact .inr (.inl ⟨rfl, rfl⟩)
  | absorb len =>
    by_cases hl : len.toNat ≤ 8
    · by_cases hf : s.hash.f0 = 0
      · exact .inr (.inr (.inl ⟨len, rfl, hl, hf, execAbsorb_ok hl hf⟩))
      · exact .inl ⟨_, by decide, execAbsorb_finalized hl hf⟩
    · exact .inl ⟨_, by decide, execAbsorb_illegal (by omega)⟩
  | final n =>
    by_cases hn : 32 ≤ n.toNat
    · by_cases hf : s.hash.f0 = 0
      · exact .inr (.inr (.inr ⟨n, rfl, hn, hf, execFinal_ok hn hf⟩))
      · exact .inl ⟨_, by decide, execFinal_finalized hn hf⟩
    · exact .inl ⟨_, by decide, execFinal_small (by omega)⟩

/-! Which activity a step performs. -/

theorem turn_inReset {s : State} (h : s.resetIn = true) : turn s = .inReset := by simp [turn, h]

theorem turn_completes {s : State} {w : Word} (hr : s.resetIn = false) (hp : s.pending = some w)
    (hb : s.busyLeft = 0) : turn s = .completes w := by simp [turn, hr, hp, hb]

theorem turn_busy {s : State} {w : Word} (hr : s.resetIn = false) (hp : s.pending = some w)
    (hb : s.busyLeft ≠ 0) : turn s = .busy := by simp [turn, hr, hp, hb]

theorem turn_performs {s : State} {a : BusAccess} {rest : List BusAccess} (hr : s.resetIn = false)
    (hp : s.pending = none) (hq : s.port = a :: rest) : turn s = .performs a rest := by
  simp [turn, hr, hp, hq]

theorem turn_idle {s : State} (hr : s.resetIn = false) (hp : s.pending = none) (hq : s.port = []) :
    turn s = .idle := by simp [turn, hr, hp, hq]

/-! What a step is, by its activity. -/

theorem step_inReset {s : State} (h : s.resetIn = true) : step s = .next (applyReset s) := by
  simp only [step, turn_inReset h]

theorem step_busy {s : State} {w : Word} (hr : s.resetIn = false) (hp : s.pending = some w)
    (hb : s.busyLeft ≠ 0) : step s = .next (busyWait s) := by
  simp only [step, turn_busy hr hp hb]

theorem step_performs {s : State} {a : BusAccess} {rest : List BusAccess} (hr : s.resetIn = false)
    (hp : s.pending = none) (hq : s.port = a :: rest) :
    step s = performAccess a { s with port := rest } := by
  simp only [step, turn_performs hr hp hq]

theorem step_idle {s : State} (hr : s.resetIn = false) (hp : s.pending = none) (hq : s.port = []) :
    step s = .next s := by
  simp only [step, turn_idle hr hp hq]

/-- R52: performing an access inside the window. -/
theorem performAccess_ok {a : BusAccess} {s : State} {off : Nat}
    (h : windowOffset s.params a = some off) :
    performAccess a s = .next (accessWindow off a.op s) := by simp [performAccess, h]

/-- R52, R185: performing any other access. -/
theorem performAccess_rejected {a : BusAccess} {s : State} (h : windowOffset s.params a = none) :
    performAccess a s = .fault (.busError a) := by simp [performAccess, h]

/-- R12, R52: a 64-bit access at BASE + off reaches offset off, for every multiple of 8 inside the
window. -/
theorem windowOffset_base_add (p : Params) (op : BusOp) {off : Nat} (h8 : off % 8 = 0)
    (h : off + 8 ≤ 256) :
    windowOffset p { addr := p.base + off, size := 8, op := op } = some off := by
  simp [windowOffset, accessBytes, windowBytes, h8, h]

/-- R12: an aligned 64-bit read inside the window. -/
theorem windowOffset_hostRead (p : Params) {off : Nat} (h8 : off % 8 = 0) (h : off + 8 ≤ 256) :
    windowOffset p (hostRead p off) = some off := windowOffset_base_add p .read h8 h

/-- R12: an aligned 64-bit write inside the window. -/
theorem windowOffset_hostWrite (p : Params) (v : Word) {off : Nat} (h8 : off % 8 = 0)
    (h : off + 8 ≤ 256) : windowOffset p (hostWrite p off v) = some off :=
  windowOffset_base_add p (.write v) h8 h

/-- R51, R54: the step that performs a read of window offset `off`. -/
theorem step_hostRead {s : State} {off : Nat} {rest : List BusAccess} (hr : s.resetIn = false)
    (hp : s.pending = none) (hq : s.port = hostRead s.params off :: rest) (h8 : off % 8 = 0)
    (h : off + 8 ≤ 256) :
    step s = .next (respond (.data (readReg (regAt off) { s with port := rest })) { s with port := rest }) := by
  rw [step_performs hr hp hq]
  exact performAccess_ok (windowOffset_hostRead s.params h8 h)

/-- R51, R54: the step that performs a write to window offset `off`. -/
theorem step_hostWrite {s : State} {off : Nat} {v : Word} {rest : List BusAccess}
    (hr : s.resetIn = false) (hp : s.pending = none) (hq : s.port = hostWrite s.params off v :: rest)
    (h8 : off % 8 = 0) (h : off + 8 ≤ 256) :
    step s = .next (respond .written (writeReg (regAt off) v { s with port := rest })) := by
  rw [step_performs hr hp hq]
  exact performAccess_ok (windowOffset_hostWrite s.params v h8 h)

/-- R52: the accesses that reach offset `off` are the 64-bit accesses at BASE + off, for a multiple of 8
inside the window. -/
theorem windowOffset_eq_some {p : Params} {a : BusAccess} {off : Nat}
    (h : windowOffset p a = some off) :
    a = { addr := p.base + off, size := 8, op := a.op } ∧ off % 8 = 0 ∧ off + 8 ≤ 256 := by
  simp only [windowOffset] at h
  split at h
  · rename_i hc
    obtain ⟨h1, h2, h3, h4⟩ := hc
    have ho : a.addr - p.base = off := by simpa using h
    subst ho
    refine ⟨?_, h3, h4⟩
    obtain ⟨addr, size, op⟩ := a
    simp only [BusAccess.mk.injEq, and_true] at *
    exact ⟨by omega, h1⟩
  · simp at h

end Sys2Proof.Machine
end

