-- ==== Sys2Proof/Laws/Stream.lean ====
section
/-! SUPPORT. `Update` as a function of the stream of bytes not yet compressed: the valid bytes of the buffer
followed by the new data (spec 42_streaming.md R141). -/

namespace Sys2Proof.Machine

/-- The fields a compression reads and writes. -/
structure sameChain (x y : HashState) : Prop where
  h : x.h = y.h
  t0 : x.t0 = y.t0
  t1 : x.t1 = y.t1
  f0 : x.f0 = y.f0
  f1 : x.f1 = y.f1

theorem sameChain.refl (x : HashState) : sameChain x x := ⟨rfl, rfl, rfl, rfl, rfl⟩

theorem sameChain.trans {x y z : HashState} (a : sameChain x y) (b : sameChain y z) : sameChain x z :=
  ⟨a.h.trans b.h, a.t0.trans b.t0, a.t1.trans b.t1, a.f0.trans b.f0, a.f1.trans b.f1⟩

theorem sameChain.symm {x y : HashState} (a : sameChain x y) : sameChain y x :=
  ⟨a.h.symm, a.t0.symm, a.t1.symm, a.f0.symm, a.f1.symm⟩

theorem incrementCounter_chain {x y : HashState} (a : sameChain x y) (n : Nat) :
    sameChain (incrementCounter n x) (incrementCounter n y) :=
  ⟨a.h, by simp [incrementCounter, a.t0], by simp [incrementCounter, a.t0, a.t1], a.f0, a.f1⟩

theorem absorbBlock_chain {x y : HashState} (a : sameChain x y) (block : List Byte) :
    sameChain (absorbBlock block x) (absorbBlock block y) := by
  have i := incrementCounter_chain a blockBytes
  exact ⟨by simp [absorbBlock, i.t0, i.t1, a.h, a.f0, a.f1], i.t0, i.t1, i.f0, i.f1⟩

/-- The loop of R141 depends on nothing else, and leaves the same bytes. -/
theorem absorbWhole_chain {x y : HashState} (a : sameChain x y) (fuel : Nat) (d : List Byte) :
    (absorbWhole fuel d x).1 = (absorbWhole fuel d y).1 ∧
      sameChain (absorbWhole fuel d x).2 (absorbWhole fuel d y).2 := by
  induction fuel generalizing d x y with
  | zero => exact ⟨rfl, a⟩
  | succ n ih =>
    simp only [absorbWhole]
    split
    · exact ih (absorbBlock_chain a _) _
    · exact ⟨rfl, a⟩

/-- The loop with enough fuel for its data. -/
def absorbStream (d : List Byte) (x : HashState) : List Byte × HashState := absorbWhole d.length d x

theorem absorbWhole_eq_absorbStream {fuel : Nat} {d : List Byte} (x : HashState) (h : d.length ≤ fuel) :
    absorbWhole fuel d x = absorbStream d x := by
  suffices H : ∀ (m n : Nat) (d : List Byte) (x : HashState), d.length ≤ m → d.length ≤ n →
      absorbWhole m d x = absorbWhole n d x from H _ _ d x h (Nat.le_refl _)
  intro m
  induction m with
  | zero =>
    intro n d x hm _
    rw [absorbWhole_of_le (by omega), absorbWhole_of_le (by omega)]
  | succ m ih =>
    intro n d x hm hn
    by_cases hd : d.length ≤ 128
    · rw [absorbWhole_of_le hd, absorbWhole_of_le hd]
    · cases n with
      | zero => omega
      | succ n =>
        simp only [absorbWhole]
        rw [if_pos (by simp [blockBytes]; omega), if_pos (by simp [blockBytes]; omega)]
        exact ih n _ _ (by simp [blockBytes]; omega) (by simp [blockBytes]; omega)

theorem absorbStream_of_le {d : List Byte} {x : HashState} (h : d.length ≤ 128) :
    absorbStream d x = (d, x) := absorbWhole_of_le h

theorem absorbStream_of_gt {d : List Byte} {x : HashState} (h : 128 < d.length) :
    absorbStream d x = absorbStream (d.drop 128) (absorbBlock (d.take 128) x) := by
  obtain ⟨n, hn⟩ : ∃ n, d.length = n + 1 := ⟨d.length - 1, by omega⟩
  have : absorbStream d x = absorbWhole (n + 1) d x := by rw [absorbStream, hn]
  rw [this]
  simp only [absorbWhole]
  rw [if_pos (by simp [blockBytes]; omega)]
  exact absorbWhole_eq_absorbStream _ (by simp [blockBytes]; omega)

theorem absorbStream_chain {x y : HashState} (a : sameChain x y) (d : List Byte) :
    (absorbStream d x).1 = (absorbStream d y).1 ∧ sameChain (absorbStream d x).2 (absorbStream d y).2 :=
  absorbWhole_chain a _ d

theorem absorbStream_length (d : List Byte) (x : HashState) : (absorbStream d x).1.length ≤ 128 :=
  absorbWhole_rest_length x (Nat.le_refl _)

/-- Consuming a stream in two parts is consuming it at once. -/
theorem absorbStream_append (d e : List Byte) (x : HashState) :
    absorbStream (d ++ e) x = absorbStream ((absorbStream d x).1 ++ e) (absorbStream d x).2 := by
  generalize hn : d.length = n
  induction n using Nat.strongRecOn generalizing d x with
  | _ n ih =>
    by_cases hd : d.length ≤ 128
    · rw [absorbStream_of_le hd]
    · have h1 : 128 < (d ++ e).length := by simp; omega
      rw [absorbStream_of_gt h1, absorbStream_of_gt (d := d) (by omega)]
      have htake : (d ++ e).take 128 = d.take 128 := List.take_append_of_le_length (by omega)
      have hdrop : (d ++ e).drop 128 = d.drop 128 ++ e := List.drop_append_of_le_length (by omega)
      rw [htake, hdrop]
      exact ih (d.drop 128).length (by simp; omega) _ _ rfl

@[simp] theorem validBytes_length (x : HashState) : (validBytes x).length = x.bufLen := by simp [validBytes]

theorem validBytes_congr {x y : HashState} (hl : x.bufLen = y.bufLen)
    (h : ∀ j, j < x.bufLen.val → Memory.read j x.buf = Memory.read j y.buf) :
    validBytes x = validBytes y := by
  simp only [validBytes, ← hl]
  exact List.map_congr_left fun j hj => h j (by simpa using hj)

theorem read_of_validBytes {x y : HashState} (hl : x.bufLen = y.bufLen) (h : validBytes x = validBytes y)
    {j : Nat} (hj : j < x.bufLen.val) : Memory.read j x.buf = Memory.read j y.buf := by
  simp only [validBytes, ← hl] at h
  exact (List.map_inj_left.1 h) j (by simpa using hj)

/-- The valid bytes followed by the bytes appended behind them. -/
theorem validBytes_bufAppend {d : List Byte} {x : HashState}
    (hs : List.Pairwise (fun c d : Host.Cell => c.1 < d.1) x.buf) (h : x.bufLen + d.length ≤ 128) :
    validBytes (bufAppend d x) = validBytes x ++ d := by
  apply List.ext_getElem
  · simp [bufAppend_bufLen h]
  · intro j h1 h2
    simp only [validBytes, List.getElem_map, List.getElem_range, bufAppend_buf]
    rw [read_bufWriteAll hs]
    simp only [validBytes_length, bufAppend_bufLen h] at h1
    by_cases hj : x.bufLen.val ≤ j
    · rw [if_pos hj, List.getElem_append_right (by simpa using hj)]
      have : j - x.bufLen.val < d.length := by omega
      simp [List.getD, this]
    · rw [if_neg hj, List.getElem_append_left (by simpa using hj)]
      simp

/-- The block that the top-off makes: the valid bytes and the first new ones. -/
theorem bufBlock_bufTopOff {d : List Byte} {x : HashState}
    (hs : List.Pairwise (fun c d : Host.Cell => c.1 < d.1) x.buf) (h : x.bufLen + d.length = 128) :
    bufBlock (bufTopOff d x).buf = validBytes x ++ d := by
  apply List.ext_getElem
  · simp [h]
  · intro j h1 h2
    simp only [getElem_bufBlock, bufTopOff_buf]
    rw [read_bufWriteAll hs]
    simp only [bufBlock_length] at h1
    by_cases hj : x.bufLen.val ≤ j
    · rw [if_pos hj, List.getElem_append_right (by simpa using hj)]
      have : j - x.bufLen.val < d.length := by omega
      simp [List.getD, this]
    · rw [if_neg hj, List.getElem_append_left (by simpa using hj)]
      simp [validBytes]

/-- R141: what `Update` leaves: the chain after the whole blocks of the stream, and the bytes of the stream
that remain. -/
theorem update_stream (d : List Byte) {x : HashState}
    (hs : List.Pairwise (fun c d : Host.Cell => c.1 < d.1) x.buf) :
    validBytes (update d x) = (absorbStream (validBytes x ++ d) x).1 ∧
      (update d x).bufLen.val = (absorbStream (validBytes x ++ d) x).1.length ∧
      sameChain (update d x) (absorbStream (validBytes x ++ d) x).2 := by
  have hbl : x.bufLen.val ≤ 128 := by omega
  by_cases h : x.bufLen + d.length ≤ 128
  · rw [absorbStream_of_le (by simpa using h)]
    by_cases hd : d = []
    · subst hd; simp [sameChain.refl]
    · rw [update_of_fits hd h]
      exact ⟨validBytes_bufAppend hs h, by simp [bufAppend_bufLen h], ⟨rfl, rfl, rfl, rfl, rfl⟩⟩
  · have hlen : (d.take (128 - x.bufLen)).length = 128 - x.bufLen.val := by simp; omega
    have htake : (validBytes x ++ d).take 128 = validBytes x ++ d.take (128 - x.bufLen) := by
      rw [List.take_append]; simp [List.take_of_length_le (by simp; omega : (validBytes x).length ≤ 128)]
    have hdrop : (validBytes x ++ d).drop 128 = d.drop (128 - x.bufLen) := by
      rw [List.drop_append]; simp [List.drop_of_length_le (by simp; omega : (validBytes x).length ≤ 128)]
    have hblock := bufBlock_bufTopOff (d := d.take (128 - x.bufLen)) hs (by rw [hlen]; omega)
    rw [update_of_exceeds (by omega), absorbStream_of_gt (by simp; omega), htake, hdrop]
    simp only [hblock]
    generalize hblk : validBytes x ++ d.take (128 - x.bufLen) = blk
    generalize hrest : d.drop (128 - x.bufLen) = rest
    rw [absorbWhole_eq_absorbStream _ (Nat.le_refl _)]
    have hch : sameChain (absorbBlock blk (bufTopOff (d.take (128 - x.bufLen)) x)) (absorbBlock blk x) :=
      absorbBlock_chain
        (show sameChain (bufTopOff (d.take (128 - x.bufLen)) x) x from ⟨rfl, rfl, rfl, rfl, rfl⟩) _
    obtain ⟨h1, h2⟩ := absorbStream_chain hch rest
    obtain ⟨-, -, k3, k4⟩ := absorbWhole_keeps rest.length rest
      (absorbBlock blk (bufTopOff (d.take (128 - x.bufLen)) x))
    have hzero : (absorbStream rest (absorbBlock blk (bufTopOff (d.take (128 - x.bufLen)) x))).2.bufLen = 0 := k4
    have hfit := absorbStream_length rest (absorbBlock blk (bufTopOff (d.take (128 - x.bufLen)) x))
    have hs' : List.Pairwise (fun c d : Host.Cell => c.1 < d.1)
        (absorbStream rest (absorbBlock blk (bufTopOff (d.take (128 - x.bufLen)) x))).2.buf := by
      rw [absorbStream, k3]; exact bufWriteAll_sorted hs _ _
    have hz : validBytes (absorbStream rest (absorbBlock blk (bufTopOff (d.take (128 - x.bufLen)) x))).2 = [] := by
      simp [validBytes, hzero]
    refine ⟨?_, ?_, ?_⟩
    · rw [validBytes_bufAppend hs' (by rw [hzero]; simpa using hfit), hz, List.nil_append, h1]
    · rw [bufAppend_bufLen (by rw [hzero]; simpa using hfit), hzero, h1]; simp
    · exact ⟨h2.h, h2.t0, h2.t1, h2.f0, h2.f1⟩

/-- R145: the block that finalization compresses: the valid bytes, zero-padded. -/
theorem bufBlock_bufPad {x : HashState}
    (hs : List.Pairwise (fun c d : Host.Cell => c.1 < d.1) x.buf) :
    bufBlock (bufPad x.bufLen x.buf) = validBytes x ++ List.replicate (128 - x.bufLen.val) 0 := by
  have hb : x.bufLen.val ≤ 128 := by omega
  apply List.ext_getElem
  · simp; omega
  · intro j h1 h2
    simp only [getElem_bufBlock, read_bufPad hs]
    simp only [bufBlock_length] at h1
    by_cases hj : x.bufLen.val ≤ j
    · rw [if_pos ⟨hj, h1⟩, List.getElem_append_right (by simpa using hj)]; simp
    · rw [if_neg (by omega), List.getElem_append_left (by simp; omega)]; simp [validBytes]

/-- `Update` keeps the buffer's indices rising. -/
theorem update_sorted (d : List Byte) {x : HashState}
    (hs : List.Pairwise (fun c d : Host.Cell => c.1 < d.1) x.buf) :
    List.Pairwise (fun c d : Host.Cell => c.1 < d.1) (update d x).buf := by
  by_cases hd : d = []
  · subst hd; exact hs
  · by_cases h : x.bufLen + d.length ≤ 128
    · rw [update_of_fits hd h]; exact bufWriteAll_sorted hs _ _
    · rw [update_of_exceeds (by omega)]
      simp only [bufAppend_buf]
      apply bufWriteAll_sorted
      rw [(absorbWhole_keeps _ _ _).2.2.1]
      exact bufWriteAll_sorted hs _ _

/-- R58: `Update` keeps the canonical form: every index it writes is in 0..127. -/
theorem update_wf (d : List Byte) {x : HashState} (hw : Memory.wf x.buf) : Memory.wf (update d x).buf := by
  have hbl : x.bufLen.val ≤ 128 := by omega
  by_cases hd : d = []
  · subst hd; exact hw
  · by_cases h : x.bufLen + d.length ≤ 128
    · rw [update_of_fits hd h]; exact bufWriteAll_wf hw h
    · rw [update_of_exceeds (by omega)]
      simp only [bufAppend_buf]
      have k := absorbWhole_keeps (d.drop (128 - x.bufLen)).length (d.drop (128 - x.bufLen))
        (absorbBlock (bufBlock (bufTopOff (d.take (128 - x.bufLen)) x).buf)
          (bufTopOff (d.take (128 - x.bufLen)) x))
      apply bufWriteAll_wf
      · rw [k.2.2.1]
        exact bufWriteAll_wf hw (by simp; omega)
      · rw [k.2.2.2]
        have := absorbWhole_rest_length (absorbBlock (bufBlock (bufTopOff (d.take (128 - x.bufLen)) x).buf)
          (bufTopOff (d.take (128 - x.bufLen)) x)) (Nat.le_refl (d.drop (128 - x.bufLen)).length)
        simpa using this

end Sys2Proof.Machine
end

