-- ==== Sys2Proof/Tests/Slice0.lean ====
section
/-! SUPPORT. The model's own tests, with the place of the spec each expected value comes from, and for every
statement with hypotheses a witness: a concrete state and operands that meet them. -/

namespace Sys2Proof.Tests

open Sys2Proof Sys2Proof.Machine

/-! Helpers. -/

/-- The step answers a next state that satisfies `p`. -/
def nextIs (o : Host.Outcome State Fault Refusal) (p : State → Bool) : Bool :=
  match o with
  | .next t => p t
  | .fault _ => false
  | .refused _ => false

/-- Reset, then `n` bytes absorbed into the buffer: the first `n` of 00 01 02 ... 7f (n ≤ 128). -/
def holding (n : Nat) : State :=
  { State.reset with
    hash := { HashState.initial with
      buf := bufWriteAll 0 ((List.range n).map (BitVec.ofNat 8)) []
      bufLen := Fin.ofNat 129 n } }

/-- A finalized state with a digest in it. -/
def done : State :=
  { State.reset with
    hash := { HashState.initial with f0 := ones64, bufLen := 128, t0 := 128 }
    digest := #v[1, 2, 3, 4]
    dataIn := 0x0807060504030201 }

/-- The machine with the other value of LAST_NODE_MODE (00_scope.md R7). -/
def docLiteral (s : State) : State := { s with params := { s.params with lastNodeMode := .docLiteral } }

/-- `s` with the given access as the port's only one. -/
def withAccess (s : State) (a : BusAccess) : State := { s with port := [a] }

/-! WellFormed: an ill-formed term for its one check (30_encoding.md R74(d)), and the legal bounds. -/

theorem test_wellFormed_refuses_absorb_9 : (Instr.absorb 9).wellFormed = false := by decide
theorem test_wellFormed_refuses_absorb_255 : (Instr.absorb 255).wellFormed = false := by decide
theorem test_wellFormed_admits_the_bounds :
    Instr.init.wellFormed = true ∧ (Instr.absorb 0).wellFormed = true ∧ (Instr.absorb 8).wellFormed = true ∧
    (Instr.final 0).wellFormed = true ∧ (Instr.final 255).wellFormed = true := by decide

/-! Decoding: each word written out bit by bit from the pattern of 30_encoding.md R71 (RSV, ARG, OPC). -/

/-- INIT: OPC 0x01, ARG 0. -/
theorem test_decode_init :
    decode ((0b000000000000000000000000000000000000000000000000 : BitVec 48) ++ (0b00000000 : BitVec 8)
      ++ (0b00000001 : BitVec 8)) = .ok .init := by decide
/-- ABSORB 8: OPC 0x02, ARG 8. -/
theorem test_decode_absorb :
    decode ((0b000000000000000000000000000000000000000000000000 : BitVec 48) ++ (0b00001000 : BitVec 8)
      ++ (0b00000010 : BitVec 8)) = .ok (.absorb 8) := by decide
/-- FINAL 32: OPC 0x03, ARG 32. -/
theorem test_decode_final :
    decode ((0b000000000000000000000000000000000000000000000000 : BitVec 48) ++ (0b00100000 : BitVec 8)
      ++ (0b00000011 : BitVec 8)) = .ok (.final 32) := by decide
/-- The numbering of opcode_table.json: bit 0 is the word's least significant. DEC-1, DEC-4, DEC-7, DEC-5. -/
theorem test_decodeTableWord :
    decodeTableWord 64 0x1 = some .init ∧ decodeTableWord 64 0x802 = some (.absorb 8) ∧
    decodeTableWord 64 0x2003 = some (.final 32) ∧ decodeTableWord 64 0x902 = none := by decide

/-! Values inside the engine (95_test_vectors.md section 2). -/

/-- ROT-5, ROT-7, ROT-9. -/
theorem test_rotr :
    rotr 0x8000000000000000 63 = 0x0000000000000001 ∧ rotr 0x0123456789abcdef 24 = 0xabcdef0123456789 ∧
    rotr 0x0123456789abcdef 63 = 0x02468acf13579bde := by decide
/-- 40_param_init.md R91: P's size, its four first bytes and the last. -/
theorem test_parameterBlock :
    parameterBlock.length = 64 ∧ parameterBlock.take 4 = [0x20, 0, 1, 1] ∧ parameterBlock.drop 63 = [0x68] := by
  decide
/-- INI-1, INI-2. -/
theorem test_parameterWords :
    parameterWords = #v[0x0000000001010020, 0, 0, 0, 0, 0, 0x616665642d626b63, 0x687361682d746c75] := by decide
/-- 41_compression.md R111's example. -/
theorem test_messageWords :
    (messageWords ((List.range 128).map (BitVec.ofNat 8)))[0] = 0x0706050403020100 ∧
    (messageWords ((List.range 128).map (BitVec.ofNat 8)))[15] = 0x7f7e7d7c7b7a7978 := by decide +kernel
/-- G-2. -/
theorem test_g_unit :
    g 1 0 0 0 0 0 = (0x0000000000000101, 0x0202000200020200, 0x0101000100010000, 0x0101000000010000) := by decide
/-- G-8: six different words. -/
theorem test_g_words :
    g 0x0123456789abcdef 0xfedcba9876543210 0x0f1e2d3c4b5a6978 0x8796a5b4c3d2e1f0 0x1111111111111111
      0x2222222222222222 =
    (0xe95f405271d7b7c9, 0xa6c4a94d586303f4, 0xe54e59b99295056d, 0x036c3b9cb0b2e750) := by decide
/-- CMP-5: T0 = 128, the block 00 01 .. 7f. -/
theorem test_compress :
    compress hInit 128 0 0 0 ((List.range 128).map (BitVec.ofNat 8)) =
    #v[0x341f05ceec2366d0, 0x02347c17cacbe94f, 0x54633c37fb0babfe, 0xbc4cd055c1dd2108,
       0x3644ea8e0bd388f7, 0xcc102d83709f3a7a, 0xa03a27b61626365e, 0x1d7d3639aa297d09] := by decide +kernel
/-- CMP-6: T1 = 1, a zero block; the high counter word reaches the compression. -/
theorem test_compress_high_counter :
    (compress hInit 0 1 0 0 (List.replicate 128 0))[0] = 0xe589e890c53a929e := by decide +kernel
/-- CNT-4: the low word carries into the high word. -/
theorem test_counter_carry :
    (incrementCounter 32 { HashState.initial with t0 := 0xfffffffffffffff0, t1 := 5 }).t0 = 0x10 ∧
    (incrementCounter 32 { HashState.initial with t0 := 0xfffffffffffffff0, t1 := 5 }).t1 = 6 := by decide
/-- CNT-6: the counter wraps at 2^128. -/
theorem test_counter_wraps :
    (incrementCounter 1 { HashState.initial with t0 := ones64, t1 := ones64 }).t0 = 0 ∧
    (incrementCounter 1 { HashState.initial with t0 := ones64, t1 := ones64 }).t1 = 0 := by decide
/-- ST-2, ST-4, ST-5, ST-7. -/
theorem test_status :
    packStatus false .accum .ok 3 = 0x302 ∧ packStatus false .accum .invalidOutputBuffer 128 = 0x8012 ∧
    packStatus false .final .alreadyFinalized 128 = 0x8024 ∧
    packStatus false .final .illegalCmd 128 = 0x8034 := by decide
/-- PRG-6's "abc"-like slice: `ABSORBB 00 01 02` writes 0x020100, then ABSORB 3. -/
theorem test_absorbB :
    absorbB State.reset.params [0, 1, 2] =
      [{ addr := 0x10, size := 8, op := .write 0x020100 }, { addr := 0, size := 8, op := .write 0x302 }] := by decide

/-! One step of each command, its word placed where step takes its next command. -/

/-- PRG-3 step 10: INIT after a FINAL clears STATUS and leaves DIGEST and DATA_IN. -/
theorem test_init :
    nextIs (step (done.withFetchWord 64 0x1)) (fun t => statusWord t == 0 &&
      t.hash.h[0] == 0x6a09e667f2bdc928 && t.digest == done.digest && t.dataIn == done.dataIn) = true := by
  decide +kernel
/-- ABS-3 (120 bytes, ABSORB 8: exactly full, not compressed) and R151's example "abc". -/
theorem test_absorb_fits :
    nextIs (step ((holding 120).withFetchWord 64 0x802)) (fun t => statusWord t == 0x8002 &&
      t.hash.h == hInit && t.hash.t0 == 0) = true ∧
    nextIs (step ({ State.reset with dataIn := 0x636261 }.withFetchWord 64 0x302)) (fun t =>
      statusWord t == 0x302 && t.hash.buf == [(0, 0x61), (1, 0x62), (2, 0x63)]) = true := by decide +kernel
/-- ABS-6 (128 bytes, ABSORB 1: one compression) on the block of CMP-5, whose H' it leaves. -/
theorem test_absorb_compresses :
    nextIs (step ((holding 128).withFetchWord 64 0x102)) (fun t => statusWord t == 0x102 &&
      t.hash.t0 == 128 && t.hash.h[0] == 0x341f05ceec2366d0 && t.hash.h[7] == 0x1d7d3639aa297d09) = true := by
  decide +kernel
/-- FIN-1: KAT-1 (empty input) under STANDARD, and its DOC_LITERAL digest. -/
theorem test_final :
    nextIs (step (State.reset.withFetchWord 64 0x2003)) (fun t => statusWord t == 0x4 &&
      t.digest == #v[0xc5f8d54497c6f444, 0xe4ca9d946220645d, 0xc588d343efe7c49b, 0x3e163d63b5422fa1]) = true ∧
    nextIs (step ((docLiteral State.reset).withFetchWord 64 0x2003)) (fun t => statusWord t == 0x4 &&
      t.digest == #v[0xa31d70cee34c7ae3, 0xa9d036b0af3b47eb, 0x55b2d419a3aca29d, 0xbd899909632ea335]) = true := by
  decide +kernel
/-- KAT-7 (the 128 bytes 00 .. 7f, one full block at FINAL), by its digest bytes. -/
theorem test_final_full_block :
    nextIs (step ((holding 128).withFetchWord 64 0xff03)) (fun t => t.hash.t0 == 128 &&
      digestBytes t.digest == [0xbd, 0x88, 0x44, 0x67, 0xb7, 0xc1, 0x69, 0xbe, 0x49, 0xcd, 0xf8, 0x29, 0x07, 0xf4,
        0x6d, 0xdc, 0x25, 0xc9, 0xbf, 0x36, 0xcf, 0x49, 0x5e, 0xea, 0x85, 0x64, 0x39, 0xe1, 0x1a, 0x24, 0x8b,
        0x4d]) = true := by
  decide +kernel
/-- FIN-4 to FIN-7: the error codes on a finalized state, in their priority. -/
theorem test_errors :
    nextIs (step (done.withFetchWord 64 0x2003)) (fun t => statusWord t == 0x8024) = true ∧
    nextIs (step (done.withFetchWord 64 0x1f03)) (fun t => statusWord t == 0x8014) = true ∧
    nextIs (step (done.withFetchWord 64 0x2)) (fun t => statusWord t == 0x8024) = true ∧
    nextIs (step (done.withFetchWord 64 0x902)) (fun t => statusWord t == 0x8034) = true := by decide +kernel

/-! WITNESSES. `witness_<Name>`: states and operands that meet the hypotheses of Obligations.<Name>, one for
each of its clauses, at the bounds. -/

/-- An engine ready for the word `w` to complete. -/
def about (w : Word) (s : State) : State := placeCommand w s

/-- Each way a word is illegal, at its bound. -/
theorem witness_IllegalWordsChangeOnlyErr :
    (about 0x902 done).resetIn = false ∧ (about 0x902 done).pending = some 0x902 ∧
    (about 0x902 done).busyLeft = 0 ∧ ¬ legalWord 0x902 ∧ ¬ legalWord 0x101 ∧ ¬ legalWord 0x0 ∧
    ¬ legalWord 0x4 ∧ ¬ legalWord 0x10001 ∧ ¬ legalWord 0x8000000000000003 ∧ legalWord 0x802 := by
  refine ⟨rfl, rfl, rfl, ?_, ?_, ?_, ?_, ?_, ?_, ?_⟩ <;> unfold legalWord <;> decide

theorem witness_DecodeFollowsTheFields :
    decode 0x1 = .ok .init ∧ decode 0x802 = .ok (.absorb 8) ∧ decode 0xff03 = .ok (.final 255) := by decide

theorem witness_EncodeAndDecodeAgree :
    (Instr.absorb 8).wellFormed = true ∧ (Instr.final 255).wellFormed = true ∧
    decode 0x802 = .ok (.absorb 8) := by decide

theorem witness_RotrIsTheCircularRightRotation :
    ((0 : Nat) < 1 ∧ 1 < 64 ∧ 63 < 64) ∧ ((0 : Nat) < 63 ∧ 63 < 64 ∧ 0 < 64) := by decide

/-- Eight bytes at the end of nine, and the word's last byte. -/
theorem witness_LoadAndStoreAreLittleEndian :
    1 + 8 ≤ ([1, 2, 3, 4, 5, 6, 7, 8, 9] : List Byte).length ∧ 7 < 8 := by decide

theorem initial_hashInv (mode : LastNodeMode) : HashInv mode HashState.initial where
  bufWf := Memory.wf_nil
  f0Legal := .inl rfl
  f1Legal := by simp [HashState.initial]
  wholeBlocks := fun _ => by simp [counter, HashState.initial]
  emptyIsInitial := fun _ _ => rfl

theorem reset_inv : Inv State.reset where
  hash := initial_hashInv .standard
  notBusy := fun _ => rfl
  inReset := fun h => by cases h

/-- The operands of the last two clauses, at their bounds. -/
theorem witness_ResetLeavesTheStatedValues :
    (0 : BitVec 8).toNat ≤ 8 ∧ (8 : BitVec 8).toNat ≤ 8 ∧ 32 ≤ (32 : BitVec 8).toNat := by decide

theorem witness_InitFromFreshChangesNothing :
    Inv State.reset ∧ phase State.reset.hash = .fresh := ⟨reset_inv, by decide⟩

/-- An engine whose reset input is asserted, in no reset state. -/
def held : State := { done with resetIn := true }

theorem witness_ResetOverridesEverything :
    held.resetIn = true ∧ (about 0x2003 done).resetIn = false ∧ (about 0x2003 done).pending = some 0x2003 :=
  ⟨rfl, rfl, rfl⟩

theorem witness_CompressRunsTwelveRounds : 0 < 12 ∧ 11 < 12 := by decide

theorem witness_IncrementCounterIs128BitAddition :
    128 < 2 ^ 64 ∧ 2 ^ 64 - 1 < 2 ^ 64 := by decide

/-- A full buffer and one byte; an empty buffer and 128 bytes. -/
theorem witness_UpdateAtTheBlockBoundary :
    (Memory.wf (holding 128).hash.buf ∧ (holding 128).hash.bufLen.val = 128 ∧
      1 ≤ ([7] : List Byte).length) ∧
    (Memory.wf HashState.initial.buf ∧ HashState.initial.bufLen = 0 ∧
      (List.replicate 128 (1 : Byte)).length = 128) := by decide +kernel

theorem witness_ChunkingDoesNotMatter : Memory.wf (holding 128).hash.buf := by decide +kernel

/-- Two hash states that differ in a byte past BUFLEN. -/
theorem witness_StaleBufferBytesNeverMatter :
    Memory.wf HashState.initial.buf ∧ Memory.wf { HashState.initial with buf := [(127, 5)] }.buf ∧
    sameStream HashState.initial { HashState.initial with buf := [(127, 5)] } :=
  ⟨by decide, by decide, ⟨rfl, rfl, rfl, rfl, rfl, rfl, rfl⟩⟩

theorem witness_AbsorbAfterFinalIsRejected :
    ((8 : BitVec 8).toNat ≤ 8 ∧ (0 : BitVec 8).toNat ≤ 8 ∧ done.hash.f0 ≠ 0) ∧ 8 < (9 : BitVec 8).toNat := by decide

/-- 120 bytes and 8 more: exactly full. -/
theorem witness_AbsorbWithinTheBlock :
    (8 : BitVec 8).toNat ≤ 8 ∧ (holding 120).hash.f0 = 0 ∧ Memory.wf (holding 120).hash.buf ∧
    (holding 120).hash.bufLen.val + (8 : BitVec 8).toNat ≤ 128 := by decide +kernel

/-- 128 bytes and one more; 121 bytes and 8 more. -/
theorem witness_AbsorbAcrossTheBlock :
    ((1 : BitVec 8).toNat ≤ 8 ∧ (holding 128).hash.f0 = 0 ∧ Memory.wf (holding 128).hash.buf ∧
      128 < (holding 128).hash.bufLen.val + (1 : BitVec 8).toNat) ∧
    ((8 : BitVec 8).toNat ≤ 8 ∧ (holding 121).hash.f0 = 0 ∧ Memory.wf (holding 121).hash.buf ∧
      128 < (holding 121).hash.bufLen.val + (8 : BitVec 8).toNat) := by decide +kernel

theorem witness_FinalFinishesTheDigest :
    (31 : BitVec 8).toNat < 32 ∧ (32 ≤ (32 : BitVec 8).toNat ∧ done.hash.f0 ≠ 0) ∧
    (32 ≤ (255 : BitVec 8).toNat ∧ (holding 128).hash.f0 = 0 ∧ Memory.wf (holding 128).hash.buf) := by
  decide +kernel

theorem witness_FailedFinalLosesNothing :
    32 ≤ (32 : BitVec 8).toNat ∧ (31 : BitVec 8).toNat < 32 ∧ done.hash.f0 ≠ 0 := by decide

/-- A finalized engine leaves FINAL by INIT, and by reset. -/
theorem witness_OnlyInitOrResetLeavesFinal :
    (done.hash.f0 ≠ 0 ∧ 32 ≤ (32 : BitVec 8).toNat) ∧
    (∃ t, step (about 0x1 done) = .next t ∧ (about 0x1 done).hash.f0 ≠ 0 ∧
      t.hash.f0 ≠ (about 0x1 done).hash.f0) ∧
    (∃ t, step held = .next t ∧ held.hash.f0 ≠ 0 ∧ t.hash.f0 ≠ held.hash.f0) :=
  ⟨by decide, ⟨_, rfl, by decide, by decide⟩, ⟨_, rfl, by decide, by decide⟩⟩

theorem witness_StepRunsTheDecodedCommand :
    (about 0x802 done).resetIn = false ∧ (about 0x802 done).pending = some 0x802 ∧
    (about 0x802 done).busyLeft = 0 ∧ decode 0x802 = .ok (.absorb 8) ∧
    decode 0x902 = .error .absorbLength := ⟨rfl, rfl, rfl, by decide, by decide⟩

theorem witness_ErrorsComeInPriorityOrder :
    ((about 0x902 done).resetIn = false ∧ (about 0x902 done).pending = some 0x902 ∧
      (about 0x902 done).busyLeft = 0) ∧
    ¬ legalWord 0x902 ∧
    (legalWord 0x1f03 ∧ (0x1f03 : Word).toNat % 256 = 3 ∧ (0x1f03 : Word).toNat / 256 % 256 < 32) ∧
    (legalWord 0x2003 ∧ (0x2003 : Word).toNat % 256 = 3 ∧ 32 ≤ (0x2003 : Word).toNat / 256 % 256 ∧
      done.hash.f0 ≠ 0) ∧
    (legalWord 0x2 ∧ (0x2 : Word).toNat % 256 = 2) := by
  unfold legalWord; decide

/-- Two states that differ in their draws, their port and what is in progress. -/
theorem witness_CommandsAreDeterministic :
    sameEngine done { done with draws := 5, pending := some 3, port := [hostRead done.params 0] } :=
  ⟨rfl, rfl, rfl, rfl, rfl⟩

/-- H written by reset, by INIT, by an ABSORB that does not fit and by a FINAL. -/
theorem witness_OnlyCompressionsWriteTheChain :
    (∃ t, step { held with hash := { held.hash with h := Vector.replicate 8 0 } } = .next t ∧
      t.hash.h ≠ Vector.replicate 8 0) ∧
    (∃ t, step (about 0x1 { done with hash := { done.hash with h := Vector.replicate 8 0 } }) = .next t ∧
      t.hash.h ≠ Vector.replicate 8 0) ∧
    (∃ t, step (about 0x102 (holding 128)) = .next t ∧ t.hash.h ≠ (about 0x102 (holding 128)).hash.h) ∧
    (∃ t, step (about 0x2003 State.reset) = .next t ∧ t.hash.h ≠ (about 0x2003 State.reset).hash.h) :=
  ⟨⟨_, rfl, by decide⟩, ⟨_, rfl, by decide⟩, ⟨_, rfl, by decide +kernel⟩, ⟨_, rfl, by decide +kernel⟩⟩

/-- DIGEST written by reset and by a FINAL. -/
theorem witness_OnlyFinalWritesTheDigest :
    (∃ t, step held = .next t ∧ t.digest ≠ held.digest) ∧
    (∃ t, step (about 0x2003 State.reset) = .next t ∧ t.digest ≠ (about 0x2003 State.reset).digest) :=
  ⟨⟨_, rfl, by decide⟩, ⟨_, rfl, by decide +kernel⟩⟩

/-- DATA_IN written by reset and by the host. -/
theorem witness_OnlyTheHostWritesDataIn :
    (∃ t, step held = .next t ∧ t.dataIn ≠ held.dataIn) ∧
    (∃ t, step (withAccess done (hostWrite done.params 0x10 ones64)) = .next t ∧ t.dataIn ≠ done.dataIn) :=
  ⟨⟨_, rfl, by decide⟩, ⟨_, rfl, by decide⟩⟩

/-- STATUS.ERR written by reset and by a completion. -/
theorem witness_OnlyCompletionWritesErr :
    (∃ t, step { held with err := .illegalCmd } = .next t ∧ t.err ≠ ErrCode.illegalCmd) ∧
    (∃ t, step (about 0x902 done) = .next t ∧ t.err ≠ (about 0x902 done).err) :=
  ⟨⟨_, rfl, by decide⟩, ⟨_, rfl, by decide⟩⟩

/-- The three phases; ACCUM with an empty buffer counter word T1 only, and with one valid byte. -/
theorem witness_PhaseIsDerivedFromTheHashState :
    done.hash.f0 ≠ 0 ∧
    (HashState.initial.f0 = 0 ∧ counter HashState.initial = 0 ∧ HashState.initial.bufLen = 0) ∧
    ((holding 1).hash.f0 = 0 ∧ ¬ (counter (holding 1).hash = 0 ∧ (holding 1).hash.bufLen = 0)) ∧
    ¬ (counter { HashState.initial with t1 := 1 } = 0 ∧ HashState.initial.bufLen = 0) := by decide

theorem done_ready : ready done := ⟨rfl, rfl, rfl⟩

/-- The first and the last view, and a write to each. -/
theorem witness_ViewsReadTheHashState :
    ready (withAccess done (hostRead done.params 0x40)) ∧
    (withAccess done (hostRead done.params 0x40)).port = hostRead done.params (0x40 + 8 * 0) :: [] ∧
    ready (withAccess done (hostRead done.params 0x98)) ∧
    (withAccess done (hostRead done.params 0x98)).port = hostRead done.params 0x98 :: [] ∧
    (8 ≤ 8 ∧ 19 < 20 ∧
      (withAccess done (hostWrite done.params (8 * 19) 7)).port = hostWrite done.params (8 * 19) 7 :: []) :=
  ⟨done_ready, rfl, done_ready, rfl, by decide, by decide, rfl⟩

/-- The bounds of the reserved ranges. -/
theorem witness_ReservedOffsetsReadZero :
    ((0x18 = 0x18 ∨ (0xA0 ≤ 0x18 ∧ 0x18 ≤ 0xF8 ∧ 0x18 % 8 = 0)) ∧
      (0xA0 ≤ 0xA0 ∧ 0xA0 ≤ 0xF8 ∧ 0xA0 % 8 = 0) ∧ (0xA0 ≤ 0xF8 ∧ 0xF8 ≤ 0xF8 ∧ 0xF8 % 8 = 0)) ∧
    ready (withAccess done (hostRead done.params 0xF8)) ∧
    (withAccess done (hostRead done.params 0xF8)).port = hostRead done.params 0xF8 :: [] :=
  ⟨by decide, done_ready, rfl⟩

theorem witness_ControlRegistersReadAndWrite :
    ready (withAccess done (hostWrite done.params 0x10 7)) ∧
    (withAccess done (hostWrite done.params 0x10 7)).port = hostWrite done.params 0x10 7 :: [] ∧
    (withAccess done (hostRead done.params 0x38)).port = hostRead done.params (0x20 + 8 * 3) :: [] ∧
    (withAccess done (hostRead done.params 0x0)).port = hostRead done.params 0x0 :: [] ∧
    (withAccess done (hostWrite done.params 0x8 1)).port = hostWrite done.params 0x8 1 :: [] :=
  ⟨done_ready, rfl, rfl, rfl, rfl⟩

/-- The window's last slot; the first address past it; a 32-bit access; a misaligned one. -/
theorem witness_OnlyAlignedWindowAccessesArePerformed :
    (ready (withAccess done (hostRead done.params 0xF8)) ∧
      (withAccess done (hostRead done.params 0xF8)).port = hostRead done.params 0xF8 :: [] ∧
      (hostRead done.params 0xF8).size = 8 ∧
      ∃ k : Nat, k < 32 ∧ (hostRead done.params 0xF8).addr = done.params.base + 8 * k) ∧
    (¬ ∃ k : Nat, k < 32 ∧ (hostRead done.params 0x100).addr = done.params.base + 8 * k) ∧
    (¬ ∃ k : Nat, k < 32 ∧ (hostRead done.params 0xFC).addr = done.params.base + 8 * k) ∧
    ({ addr := 0x8, size := 4, op := .read } : BusAccess).size ≠ 8 :=
  ⟨⟨done_ready, rfl, rfl, 31, by decide, by decide⟩, by decide +kernel, by decide +kernel, by decide⟩

theorem witness_OnlyBusErrorsStopTheMachine :
    step (withAccess done { addr := 0x100, size := 8, op := .read }) =
      .fault (.busError { addr := 0x100, size := 8, op := .read }) := rfl

/-- The illegal word 0 is accepted like any other. -/
theorem witness_CmdWriteIsAccepted :
    ready (withAccess done (hostWrite done.params 0x00 0)) ∧
    (withAccess done (hostWrite done.params 0x00 0)).port = hostWrite done.params 0x00 0 :: [] :=
  ⟨done_ready, rfl⟩

/-- A command in progress, with a STATUS read at the port's head, and with another access. -/
theorem witness_BusyHoldsEveryAccessButStatusReads :
    let s := { withAccess (about 0x1 done) (hostRead done.params 0x08) with busyLeft := 1 }
    let t := { withAccess (about 0x1 done) (hostWrite done.params 0x08 0) with busyLeft := 2 }
    (s.resetIn = false ∧ s.pending = some 0x1 ∧ s.busyLeft ≠ 0 ∧ s.port = hostRead s.params 0x08 :: []) ∧
    (t.resetIn = false ∧ t.pending = some 0x1 ∧ t.busyLeft ≠ 0 ∧
      ∀ rest : List BusAccess, t.port ≠ hostRead t.params 0x08 :: rest) :=
  ⟨⟨rfl, rfl, by decide, rfl⟩, rfl, rfl, by decide, fun _ h => by injection h with h _; revert h; decide⟩

theorem witness_EveryCommandCompletes :
    { about 0x2003 done with busyLeft := 3 }.resetIn = false ∧
    { about 0x2003 done with busyLeft := 3 }.pending = some 0x2003 := ⟨rfl, rfl⟩

theorem witness_PollEndsWithNoCommandInProgress :
    { about 0x2003 done with busyLeft := 3 }.resetIn = false ∧
    { about 0x2003 done with busyLeft := 3 }.port = [] := ⟨rfl, rfl⟩

/-- A step that writes the hash state of a state that meets the invariant. -/
theorem witness_EveryStepKeepsTheInvariant :
    Inv (about 0x2003 State.reset) ∧ ∃ t, step (about 0x2003 State.reset) = .next t ∧ t.hash.f0 = ones64 :=
  ⟨{ hash := initial_hashInv .standard, notBusy := fun _ => rfl, inReset := fun h => by cases h },
    ⟨_, rfl, rfl⟩⟩

/-- Reset asserted on a state that reset reached. -/
theorem witness_EveryReachableStateMeetsTheInvariant (p : Params) :
    Reachable p (assertReset { State.reset with params := p }) :=
  .react _ _ .assertReset .reset rfl

/-- Two engines; the first takes an idle step. -/
theorem witness_InstancesShareNothing :
    reactAt 0 .engineStep [done, State.reset] = some (.next [done, State.reset]) ∧ 1 ≠ 0 := ⟨rfl, by decide⟩

/-- LEN at its bounds, with junk in the unused bytes. -/
theorem witness_CommandsComputeTheDigest :
    (∀ o ∈ ([(ones64, 0), (ones64, 3), (ones64, 8)] : List (Word × BitVec 8)), o.2.toNat ≤ 8) ∧
    32 ≤ (32 : BitVec 8).toNat := ⟨by simp, by decide⟩

/-- Slices of 0, 3 and 8 bytes, on an engine that has been used. -/
theorem witness_HashMacroLeavesTheDigest :
    let slices : List (List Byte) := [[], [1, 2, 3], [1, 2, 3, 4, 5, 6, 7, 8]]
    let s := { done with port := hashSlices done.params slices }
    ready s ∧ (∀ b ∈ slices, b.length ≤ 8) ∧ s.port = hashSlices s.params slices :=
  ⟨done_ready, by decide, rfl⟩

/-- Each kind of event, on a state that meets the invariant. -/
theorem witness_EveryEventKeepsTheInvariant :
    Inv State.reset ∧ react (.present (hostRead State.reset.params 0)) State.reset =
      .next (withAccess State.reset (hostRead State.reset.params 0)) ∧
    react .assertReset State.reset = .next (assertReset State.reset) ∧
    react .releaseReset State.reset = .next (releaseReset State.reset) ∧
    react .engineStep State.reset = .next State.reset := ⟨reset_inv, rfl, rfl, rfl, rfl⟩

/-- Two engines: the first is used, reset is asserted at the second in between. -/
theorem witness_InstancesRunIndependently :
    ∃ es', runAll [(0, .present (hostRead done.params 0)), (1, .assertReset), (0, .engineStep)]
      [done, State.reset] = some (.next es') := ⟨_, rfl⟩

/-- Two engines at neighbouring windows: the last slot of the one and the first of the other. -/
theorem witness_EnginesStartInResetAndKeepTheirWindows :
    let ps : List Placement := [⟨0, .standard⟩, ⟨1, .docLiteral⟩]
    (∃ es, runAll [(1, .engineStep), (0, .assertReset)] (Engines.reset ps) = some (.next es)) ∧
    (ps.map Placement.windowIndex).Nodup ∧
    (∃ s t, (Engines.reset ps)[0]? = some s ∧ (Engines.reset ps)[1]? = some t ∧
      windowOffset s.params { addr := 0xF8, size := 8, op := .read } ≠ none ∧
      windowOffset t.params { addr := 0x100, size := 8, op := .read } ≠ none) :=
  ⟨⟨_, rfl⟩, by decide, _, _, rfl, rfl, by decide, by decide⟩

end Sys2Proof.Tests
end

section
/-! PROOF of the determinism of the commands (spec 00_scope.md R14): each write a command makes takes states
that agree in the engine to states that agree in it, and each condition a command tests is one of the engine. -/

namespace Sys2Proof.Machine

theorem complete_sameEngine {s t : State} (h : sameEngine s t) (c : ErrCode) :
    sameEngine (complete c s) (complete c t) :=
  ⟨h.params, h.hash, rfl, h.dataIn, h.digest⟩

theorem initState_sameEngine {s t : State} (h : sameEngine s t) : sameEngine (initState s) (initState t) :=
  ⟨h.params, rfl, h.err, h.dataIn, h.digest⟩

/-- R151: the bytes that ABSORB hands to Update are a function of DATA_IN. -/
theorem update_sameEngine {s t : State} (h : sameEngine s t) (len : BitVec 8) :
    sameEngine { s with hash := update (operandBytes len s.dataIn) s.hash }
      { t with hash := update (operandBytes len t.dataIn) t.hash } :=
  ⟨h.params, by simp only [h.dataIn, h.hash], h.err, h.dataIn, h.digest⟩

/-- R152: Finalize takes the last-node mode from the parameters, and DIGEST is read off its result. -/
theorem finalize_sameEngine {s t : State} (h : sameEngine s t) :
    sameEngine
      { s with hash := finalize s.params.lastNodeMode s.hash,
               digest := digestWords (finalize s.params.lastNodeMode s.hash) }
      { t with hash := finalize t.params.lastNodeMode t.hash,
               digest := digestWords (finalize t.params.lastNodeMode t.hash) } :=
  ⟨h.params, by simp only [h.params, h.hash], h.err, h.dataIn, by simp only [h.params, h.hash]⟩

end Sys2Proof.Machine

open Sys2Proof Sys2Proof.Machine

/-- Settles O28, by the cases of each command: the states agree in whether the engine is finalized, so they
take the same case, and the completion of each case keeps the agreement. -/
theorem commandsAreDeterministic : Obligations.CommandsAreDeterministic := by
  intro i s t h
  cases i with
  | init => exact ⟨_, _, execInit_eq s, execInit_eq t, complete_sameEngine (initState_sameEngine h) .ok⟩
  | absorb len =>
    by_cases hl : len.toNat ≤ 8
    · by_cases hf : s.hash.f0 = 0
      · exact ⟨_, _, execAbsorb_ok hl hf, execAbsorb_ok hl (h.hash ▸ hf),
          complete_sameEngine (update_sameEngine h len) .ok⟩
      · exact ⟨_, _, execAbsorb_finalized hl hf, execAbsorb_finalized hl (h.hash ▸ hf),
          complete_sameEngine h .alreadyFinalized⟩
    · exact ⟨_, _, execAbsorb_illegal (Nat.not_le.1 hl), execAbsorb_illegal (Nat.not_le.1 hl),
        complete_sameEngine h .illegalCmd⟩
  | final n =>
    by_cases hn : 32 ≤ n.toNat
    · by_cases hf : s.hash.f0 = 0
      · exact ⟨_, _, execFinal_ok hn hf, execFinal_ok hn (h.hash ▸ hf),
          complete_sameEngine (finalize_sameEngine h) .ok⟩
      · exact ⟨_, _, execFinal_finalized hn hf, execFinal_finalized hn (h.hash ▸ hf),
          complete_sameEngine h .alreadyFinalized⟩
    · exact ⟨_, _, execFinal_small (Nat.not_le.1 hn), execFinal_small (Nat.not_le.1 hn),
        complete_sameEngine h .invalidOutputBuffer⟩

end

section
/-! PROOF of the hash state's reset values and of the phase derived from it (spec 10_state.md R26, R41;
40_param_init.md R95, R96). -/

namespace Sys2Proof.Machine

/-! R26: the phase, one equation per value. -/

theorem phase_eq_final {x : HashState} (h : x.f0 ≠ 0) : phase x = .final := if_pos h

theorem phase_of_f0_eq_zero {x : HashState} (h : x.f0 = 0) :
    phase x = if x.t0 = 0 ∧ x.t1 = 0 ∧ x.bufLen = 0 then .fresh else .accum := if_neg (not_not.2 h)

/-- R20, R26: the counter is 0 exactly when both of its words are. -/
theorem counter_eq_zero_iff (x : HashState) : counter x = 0 ↔ x.t0 = 0 ∧ x.t1 = 0 := by
  have hzero : (0 : Word).toNat = 0 := rfl
  rw [counter, ← BitVec.toNat_inj, ← BitVec.toNat_inj, hzero]
  omega

/-- R95: `HINIT[i] = IV[i] ^ PW[i]`, with PW read off the parameter block. -/
theorem getElem_hInit (i : Fin 8) : hInit[i] = iv[i] ^^^ load64le parameterBlock (8 * i) := by
  simp [hInit, parameterWords]

/-- R95: the table of the rule. -/
theorem hInit_eq_table : hInit = #v[0x6a09e667f2bdc928, 0xbb67ae8584caa73b, 0x3c6ef372fe94f82b,
    0xa54ff53a5f1d36f1, 0x510e527fade682d1, 0x9b05688c2b3e6c1f, 0x7ee5bccfd623d608, 0x3393ac713e0a4d0c] := by
  decide

/-- R41, R58: a buffer with no listed cell reads 0 everywhere. -/
@[simp] theorem Memory.read_nil (j : Nat) : Memory.read j [] = 0 := rfl

end Sys2Proof.Machine

open Sys2Proof Sys2Proof.Machine

/-- Settles O33: the two words of the counter are 0 exactly when the counter is, so the statement's
conditions are the ones `phase` tests. -/
theorem phaseIsDerivedFromTheHashState : Obligations.PhaseIsDerivedFromTheHashState := by
  intro x
  refine ⟨phase_eq_final, fun hf ht hl => ?_, fun hf hn => ?_⟩
  · obtain ⟨h0, h1⟩ := (counter_eq_zero_iff x).1 ht
    rw [phase_of_f0_eq_zero hf, if_pos ⟨h0, h1, hl⟩]
  · rw [phase_of_f0_eq_zero hf, if_neg fun ⟨h0, h1, hl⟩ => hn ⟨(counter_eq_zero_iff x).2 ⟨h0, h1⟩, hl⟩]

/-- Settles O7: the values are those of `State.reset`, whose hash state is the one INIT loads in every state;
it is not finalized, so ABSORB and FINAL take their cases with no error. -/
theorem resetLeavesTheStatedValues : Obligations.ResetLeavesTheStatedValues := by
  have hf : State.reset.hash.f0 = 0 := rfl
  refine ⟨hInit_eq_table, getElem_hInit, rfl, rfl, rfl, rfl, Memory.read_nil, rfl, by decide, rfl, rfl, rfl,
    by decide, rfl, fun s => ⟨_, execInit_eq s, rfl⟩, fun len hl => ⟨_, execAbsorb_ok hl hf, rfl⟩,
    fun n hn => ⟨_, execFinal_ok hn hf, rfl⟩⟩

end

section
/-! PROOF of the layout of STATUS (spec 10_state.md R30, R34). -/

namespace Sys2Proof

/-- Appending below a word shifts its number up by the width of what is appended. -/
theorem toNat_append_eq_add {m n : Nat} (x : BitVec m) (y : BitVec n) :
    (x ++ y).toNat = 2 ^ n * x.toNat + y.toNat := by
  rw [BitVec.toNat_append, ← Nat.shiftLeft_add_eq_or_of_lt y.isLt, Nat.shiftLeft_eq, Nat.mul_comm]

end Sys2Proof

namespace Sys2Proof.Machine

/-- R30: the number of a STATUS word, from the numbers of its fields. -/
theorem packStatus_toNat (b : Bool) (p : Phase) (e : ErrCode) (n : Fin 129) :
    (packStatus b p e n).toNat =
      b.toNat + 2 * (phaseBits p).toNat + 16 * (errBits e).toNat + 256 * n.val := by
  have hrsv : (0 : BitVec 48).toNat = 0 := rfl
  have hbit3 : (0 : BitVec 1).toNat = 0 := rfl
  simp only [packStatus, toNat_append_eq_add, BitVec.toNat_ofBool, BitVec.toNat_ofNat, hrsv, hbit3]
  omega

end Sys2Proof.Machine

open Sys2Proof Sys2Proof.Machine

/-- Settles O34: the number of the packed word, with the number of each field of each value. -/
theorem statusPacksItsFields : Obligations.StatusPacksItsFields := by
  intro s
  have hbusy : (busy s).toNat = if s.pending = none then 0 else 1 := by
    cases h : s.pending <;> simp [busy, h]
  rw [statusWord, packStatus_toNat, hbusy]
  cases phase s.hash <;> cases s.err <;> rfl

end

section
/-! PROOF of the register views (spec 10_state.md R37, 20_memory.md R51, R54): a read at an aligned offset of
the window returns the register of that offset, and a write to a register other than CMD and DATA_IN is
ignored. -/

namespace Sys2Proof.Machine

/-- R54: what a register holds does not depend on the accesses that wait. -/
@[simp] theorem readReg_port (r : Reg) (s : State) (q : List BusAccess) :
    readReg r { s with port := q } = readReg r s := by
  cases r <;> rfl

/-- R29, R35, R54: a write to a register other than CMD and DATA_IN changes nothing. -/
theorem writeReg_eq_self {r : Reg} (hc : r ≠ .cmd) (hd : r ≠ .dataIn) (v : Word) (s : State) :
    writeReg r v s = s := by
  cases r with
  | cmd => exact absurd rfl hc
  | dataIn => exact absurd rfl hd
  | status | digest | hview | tview0 | tview1 | fview0 | fview1 | reserved => rfl

/-- R51, R54: every aligned offset of the window reads the register that the map gives it. -/
theorem readsAs_regAt {off : Nat} (h8 : off % 8 = 0) (h : off + 8 ≤ 256) :
    readsAs off (readReg (regAt off)) := by
  intro s rest ⟨hr, hp, _⟩ hq
  rw [step_hostRead hr hp hq h8 h, readReg_port]
  rfl

/-- R54: writes are ignored at every aligned offset but those of CMD and DATA_IN. -/
theorem ignoresWrites_of_regAt {off : Nat} (h8 : off % 8 = 0) (h : off + 8 ≤ 256)
    (hc : regAt off ≠ .cmd) (hd : regAt off ≠ .dataIn) : ignoresWrites off := by
  intro s v rest ⟨hr, hp, _⟩ hq
  rw [step_hostWrite hr hp hq h8 h, writeReg_eq_self hc hd]
  rfl

/-- R51: the offsets of HVIEW0 to HVIEW7. -/
theorem regAt_hview : ∀ i : Fin 8, regAt (0x40 + 8 * i.val) = .hview i := by decide

/-- R51: no offset of the views is that of CMD or DATA_IN. -/
theorem regAt_view_ne : ∀ k < 20, 8 ≤ k → regAt (8 * k) ≠ .cmd ∧ regAt (8 * k) ≠ .dataIn := by decide

end Sys2Proof.Machine

open Sys2Proof Sys2Proof.Machine

/-- Settles O35: each view's offset is aligned and inside the window, so a read of it returns the register
the map gives it, and that register is neither CMD nor DATA_IN, so a write to it is ignored. -/
theorem viewsReadTheHashState : Obligations.ViewsReadTheHashState := by
  refine ⟨fun i => ?_, readsAs_regAt (off := 0x80) rfl (by decide), readsAs_regAt (off := 0x88) rfl (by decide),
    readsAs_regAt (off := 0x90) rfl (by decide), readsAs_regAt (off := 0x98) rfl (by decide),
    fun k hlo hhi => ?_⟩
  · have hread := readsAs_regAt (off := 0x40 + 8 * i.val) (by omega) (by omega)
    rw [regAt_hview] at hread
    exact hread
  · obtain ⟨hc, hd⟩ := regAt_view_ne k hhi hlo
    exact ignoresWrites_of_regAt (by omega) (by omega) hc hd

end

section
/-! PROOF that H is written only by INIT, by reset and by compressions (spec 10_state.md R21): all that a step
can do, and what each of its cases writes to the hash state. -/

namespace Sys2Proof

/-- R71, R73: the number of a word made of its OPC and ARG fields. -/
theorem commandWord_toNat (opc arg : BitVec 8) : (commandWord opc arg).toNat = opc.toNat + 256 * arg.toNat := by
  have hopc : opc.toNat < 2 ^ 8 := opc.isLt
  have harg : arg.toNat < 2 ^ 8 := arg.isLt
  have hshift : (arg.setWidth 64 <<< 8).toNat = arg.toNat <<< 8 := by
    simp only [BitVec.toNat_shiftLeft, BitVec.toNat_setWidth, Nat.shiftLeft_eq]
    omega
  have hsum := Nat.shiftLeft_add_eq_or_of_lt hopc arg.toNat
  rw [commandWord, BitVec.toNat_or, hshift, BitVec.toNat_setWidth, Nat.mod_eq_of_lt (by omega), Nat.or_comm,
    ← hsum, Nat.shiftLeft_eq]
  omega

/-- R71: a word whose reserved bits are 0 is made of its OPC and ARG fields. -/
theorem commandWord_fields {w : Word} (h : rsvField w = 0) : commandWord (opcField w) (argField w) = w := by
  rw [rsvField_eq_zero_iff] at h
  apply BitVec.eq_of_toNat_eq
  rw [commandWord_toNat, opcField_toNat, argField_toNat]
  omega

/-- R73, R75: a word that decodes is the encoding of its instruction. -/
theorem encode_of_decode {w : Word} {i : Instr} (h : decode w = .ok i) : encode i = w := by
  unfold decode at h
  split_ifs at h with hrsv hopc harg hopc hlen hopc
  all_goals
    cases h
    have hw := commandWord_fields (not_not.1 hrsv)
    rw [hopc] at hw
  · rw [harg] at hw
    exact hw
  · exact hw
  · exact hw

end Sys2Proof

namespace Sys2Proof.Machine

/-- R74, R153: the step that completes a legal command. -/
theorem step_completes_legal {s : State} {w : Word} {i : Instr} (hr : s.resetIn = false)
    (hp : s.pending = some w) (hb : s.busyLeft = 0) (hd : decode w = .ok i) : step s = exec i s := by
  simp only [step, turn_completes hr hp hb, hd]

/-- R74, R181: the step that completes an illegal word. -/
theorem step_completes_illegal {s : State} {w : Word} {e : IllegalWord} (hr : s.resetIn = false)
    (hp : s.pending = some w) (hb : s.busyLeft = 0) (hd : decode w = .error e) :
    step s = .next (complete .illegalCmd s) := by
  simp only [step, turn_completes hr hp hb, hd, completeIllegal_eq_complete]

/-- R52: an access is performed only inside the window. -/
theorem performAccess_eq_next {a : BusAccess} {s t : State} (h : performAccess a s = .next t) :
    ∃ off, windowOffset s.params a = some off ∧ t = accessWindow off a.op s := by
  obtain ho | ⟨off, ho⟩ := Option.eq_none_or_eq_some (windowOffset s.params a)
  · rw [performAccess_rejected ho] at h
    cases h
  · rw [performAccess_ok ho] at h
    cases h
    exact ⟨off, ho, rfl⟩

/-- All that a step from `s` can do, one constructor per activity; `step_cases` says that it is all. -/
inductive StepCase (s : State) : State → Prop where
  /-- R210: reset is asserted. -/
  | inReset (hr : s.resetIn = true) : StepCase s (applyReset s)
  /-- R213: the BUSY interval goes on. -/
  | waits {w : Word} (hr : s.resetIn = false) (hp : s.pending = some w) (hb : s.busyLeft ≠ 0) :
      StepCase s (busyWait s)
  /-- R153: the pending legal command completes. -/
  | completes {w : Word} {i : Instr} {t : State} (hr : s.resetIn = false) (hp : s.pending = some w)
      (hb : s.busyLeft = 0) (hd : decode w = .ok i) (hx : exec i s = .next t) : StepCase s t
  /-- R74: the pending illegal word completes. -/
  | rejects {w : Word} {e : IllegalWord} (hr : s.resetIn = false) (hp : s.pending = some w)
      (hb : s.busyLeft = 0) (hd : decode w = .error e) : StepCase s (complete .illegalCmd s)
  /-- R61: the port's oldest access, which is inside the window, is performed. -/
  | performs {a : BusAccess} {rest : List BusAccess} {off : Nat} (hr : s.resetIn = false)
      (hp : s.pending = none) (hq : s.port = a :: rest) (ho : windowOffset s.params a = some off) :
      StepCase s (accessWindow off a.op { s with port := rest })
  /-- Nothing is pending and no access waits. -/
  | idle (hr : s.resetIn = false) (hp : s.pending = none) (hq : s.port = []) : StepCase s s

/-- Each activity that `turn` selects is a case, and no case is missing. -/
theorem step_cases {s t : State} (h : step s = .next t) : StepCase s t := by
  obtain hr | hr := Bool.eq_false_or_eq_true s.resetIn
  · rw [step_inReset hr] at h
    cases h
    exact .inReset hr
  obtain hp | ⟨w, hp⟩ := Option.eq_none_or_eq_some s.pending
  · cases hq : s.port with
    | nil =>
      rw [step_idle hr hp hq] at h
      cases h
      exact .idle hr hp hq
    | cons a rest =>
      rw [step_performs hr hp hq] at h
      obtain ⟨off, ho, rfl⟩ := performAccess_eq_next h
      exact .performs hr hp hq ho
  · by_cases hb : s.busyLeft = 0
    · cases hd : decode w with
      | ok i => exact .completes hr hp hb hd (step_completes_legal hr hp hb hd ▸ h)
      | error e =>
        rw [step_completes_illegal hr hp hb hd] at h
        cases h
        exact .rejects hr hp hb hd
    · rw [step_busy hr hp hb] at h
      cases h
      exact .waits hr hp hb

/-! What leaves the hash state as it is. -/

/-- R213: a step of the BUSY interval does not write the hash state. -/
@[simp] theorem busyWait_hash (s : State) : (busyWait s).hash = s.hash := by
  simp only [busyWait]
  split
  · rfl
  · split <;> rfl

/-- R37: no write to a register reaches the hash state. -/
@[simp] theorem writeReg_hash (r : Reg) (v : Word) (s : State) : (writeReg r v s).hash = s.hash := by
  cases r <;> rfl

/-- R37, R54: no access reaches the hash state. -/
@[simp] theorem accessWindow_hash (off : Nat) (op : BusOp) (s : State) :
    (accessWindow off op s).hash = s.hash := by
  cases op with
  | read => rfl
  | write v => exact writeReg_hash (regAt off) v s

/-- A step writes the hash state only in reset and in the completion of a legal command. -/
theorem step_hash_cases {s t : State} (h : step s = .next t) (hne : t.hash ≠ s.hash) :
    (s.resetIn = true ∧ t.hash = HashState.initial) ∨
    (∃ i, s.pending = some (encode i) ∧ exec i s = .next t) := by
  cases step_cases h with
  | inReset hr => exact .inl ⟨hr, rfl⟩
  | waits => exact absurd (busyWait_hash s) hne
  | completes _ hp _ hd hx => exact .inr ⟨_, encode_of_decode hd ▸ hp, hx⟩
  | rejects => exact absurd (complete_hash _ s) hne
  | performs => exact absurd (accessWindow_hash _ _ _) hne
  | idle => exact absurd rfl hne

/-! R141: the chain after `Update`. -/

/-- R151: ABSORB hands LEN bytes to Update. -/
@[simp] theorem operandBytes_length (len : BitVec 8) (d : Word) : (operandBytes len d).length = len.toNat := by
  simp [operandBytes, argCount]

/-- R141: data that fits in the block is not compressed. -/
theorem update_h_of_fits {d : List Byte} {x : HashState} (h : x.bufLen + d.length ≤ 128) :
    (update d x).h = x.h := by
  by_cases hd : d = []
  · rw [hd, update_nil]
  · rw [update_of_fits hd h, bufAppend_h]

/-- R141: at most one block of data that does not fit makes one compression, of the block it fills. -/
theorem update_of_exceeds_once {d : List Byte} {x : HashState} (h : 128 < x.bufLen + d.length)
    (hd : d.length ≤ 128) :
    update d x = bufAppend (d.drop (128 - x.bufLen))
      (absorbBlock (bufBlock (bufTopOff (d.take (128 - x.bufLen)) x).buf)
        (bufTopOff (d.take (128 - x.bufLen)) x)) := by
  have hrest : (d.drop (128 - x.bufLen)).length ≤ 128 := by rw [List.length_drop]; omega
  simp only [update_of_exceeds h, absorbWhole_of_le hrest]

/-- R110, R141: that compression takes the counter and the flags that `Update` leaves. -/
theorem update_h_of_exceeds {d : List Byte} {x : HashState} (h : 128 < x.bufLen + d.length)
    (hd : d.length ≤ 128) :
    (update d x).h = compress x.h (update d x).t0 (update d x).t1 (update d x).f0 (update d x).f1
      (bufBlock (bufTopOff (d.take (128 - x.bufLen)) x).buf) := by
  rw [update_of_exceeds_once h hd]
  rfl

end Sys2Proof.Machine

open Sys2Proof Sys2Proof.Machine

/-- Settles O29: only reset and the completion of a legal command write the hash state; of the commands, INIT
loads the initial chain, ABSORB writes H only where its bytes do not fit, and FINAL compresses the padded
block. -/
theorem onlyCompressionsWriteTheChain : Obligations.OnlyCompressionsWriteTheChain := by
  intro s t hstep hne
  obtain ⟨hr, hi⟩ | ⟨i, hp, hx⟩ := step_hash_cases hstep fun h => hne (by rw [h])
  · exact .inl ⟨hr, by rw [hi, initial_h]⟩
  · right
    obtain ⟨c, -, he⟩ | ⟨rfl, he⟩ | ⟨len, rfl, hl, -, he⟩ | ⟨n, rfl, hn, hf, he⟩ := exec_cases i s
    all_goals
      rw [he] at hx
      cases hx
    · exact absurd rfl hne
    · exact .inl ⟨hp, rfl⟩
    · have hexceeds : 128 < s.hash.bufLen.val + (operandBytes len s.dataIn).length := by
        by_contra hfits
        exact hne (update_h_of_fits (Nat.not_lt.1 hfits))
      have hh := update_h_of_exceeds hexceeds (by rw [operandBytes_length]; omega)
      rw [operandBytes_length] at hexceeds
      exact .inr (.inl ⟨len, _, hp, hl, hexceeds, bufBlock_length _, hh⟩)
    · exact .inr (.inr ⟨n, _, hp, hn, hf, bufBlock_length _, finalize_h _ _⟩)

end

section
/-! PROOF of the reserved offsets and of the accesses that the port performs (spec 20_memory.md R51 to R54;
60_exceptions.md R185). -/

namespace Sys2Proof.Machine

/-- R51: the slots of the window that the map gives no register: the fourth, and those past the views. -/
theorem regAt_reserved : ∀ k < 32, k = 3 ∨ 20 ≤ k → regAt (8 * k) = .reserved := by decide

/-- R53, R54: how a slot that the map calls reserved answers. -/
theorem readsZero_ignoresWrites_of_reserved {k : Nat} (hk : k < 32) (h : k = 3 ∨ 20 ≤ k) :
    readsAs (8 * k) (fun _ => 0) ∧ ignoresWrites (8 * k) := by
  have hreg := regAt_reserved k hk h
  have h8 : 8 * k % 8 = 0 := by omega
  have hin : 8 * k + 8 ≤ 256 := by omega
  constructor
  · have hread := readsAs_regAt h8 hin
    rw [hreg] at hread
    exact hread
  · exact ignoresWrites_of_regAt h8 hin (by simp [hreg]) (by simp [hreg])

/-- R52: the accesses that reach a register are the 64-bit ones at one of the window's 32 slots. -/
theorem exists_windowOffset_iff {p : Params} {a : BusAccess} :
    (∃ off, windowOffset p a = some off) ↔ a.size = 8 ∧ ∃ k < 32, a.addr = p.base + 8 * k := by
  constructor
  · rintro ⟨off, ho⟩
    obtain ⟨ha, h8, h⟩ := windowOffset_eq_some ho
    rw [ha]
    exact ⟨rfl, off / 8, by omega, by simp only; omega⟩
  · obtain ⟨addr, size, op⟩ := a
    rintro ⟨rfl, k, hk, rfl⟩
    exact ⟨8 * k, windowOffset_base_add p op (by omega) (by omega)⟩

/-- No write to a register reaches the accesses that wait. -/
@[simp] theorem writeReg_port (r : Reg) (v : Word) (s : State) : (writeReg r v s).port = s.port := by
  cases r <;> rfl

/-- R61: performing an access leaves the accesses behind it waiting. -/
@[simp] theorem accessWindow_port (off : Nat) (op : BusOp) (s : State) :
    (accessWindow off op s).port = s.port := by
  cases op with
  | read => rfl
  | write v => exact writeReg_port (regAt off) v s

end Sys2Proof.Machine

open Sys2Proof Sys2Proof.Machine

/-- Settles O36: each of these offsets is a slot of the window that the map calls reserved, whose register
reads 0 and is neither CMD nor DATA_IN. -/
theorem reservedOffsetsReadZero : Obligations.ReservedOffsetsReadZero := by
  intro off hoff
  obtain ⟨k, rfl⟩ : ∃ k, off = 8 * k := ⟨off / 8, by omega⟩
  exact readsZero_ignoresWrites_of_reserved (by omega) (by omega)

/-- Settles O38: the statement's condition is that the access has a window offset, on which `performAccess`
decides between the access and the bus error. -/
theorem onlyAlignedWindowAccessesArePerformed : Obligations.OnlyAlignedWindowAccessesArePerformed := by
  intro s a rest ⟨hr, hp, _⟩ hq
  rw [step_performs hr hp hq, ← exists_windowOffset_iff]
  constructor
  · rintro ⟨off, ho⟩
    exact ⟨_, performAccess_ok ho, accessWindow_port .., accessWindow_hash ..⟩
  · intro hnone
    exact performAccess_rejected (Option.eq_none_iff_forall_ne_some.2 fun off ho => hnone ⟨off, ho⟩)

end

section
/-! PROOF of the decoder's match and of the legal command words (spec 30_encoding.md R74, R75). -/

namespace Sys2Proof

/-- R75: the words that decode to INIT, by their fields. -/
theorem decode_eq_init_iff (w : Word) :
    decode w = .ok .init ↔ rsvField w = 0 ∧ opcField w = 1 ∧ argField w = 0 := by
  constructor
  · intro h
    unfold decode at h
    split_ifs at h with hrsv hopc harg
    · exact ⟨not_not.1 hrsv, hopc, harg⟩
    all_goals cases h
  · rintro ⟨hrsv, hopc, harg⟩
    simp [decode, hrsv, hopc, harg]

/-- R75: the words that decode to an ABSORB, by their fields. -/
theorem decode_eq_absorb_iff (w : Word) (len : BitVec 8) :
    decode w = .ok (.absorb len) ↔
      rsvField w = 0 ∧ opcField w = 2 ∧ argField w = len ∧ len.toNat ≤ 8 := by
  constructor
  · intro h
    unfold decode at h
    split_ifs at h with hrsv _ _ hopc hlen
    all_goals cases h
    exact ⟨not_not.1 hrsv, hopc, rfl, hlen⟩
  · rintro ⟨hrsv, hopc, rfl, hlen⟩
    simp [decode, hrsv, hopc, hlen]

/-- R75: the words that decode to a FINAL, by their fields. -/
theorem decode_eq_final_iff (w : Word) (outlen : BitVec 8) :
    decode w = .ok (.final outlen) ↔ rsvField w = 0 ∧ opcField w = 3 ∧ argField w = outlen := by
  constructor
  · intro h
    unfold decode at h
    split_ifs at h with hrsv _ _ _ _ hopc
    all_goals cases h
    exact ⟨not_not.1 hrsv, hopc, rfl⟩
  · rintro ⟨hrsv, hopc, rfl⟩
    simp [decode, hrsv, hopc]

end Sys2Proof

open Sys2Proof Sys2Proof.Machine

/-- Settles O2: the match on the fields, each read as a number. -/
theorem decodeFollowsTheFields : Obligations.DecodeFollowsTheFields := by
  intro w i
  rw [← rsvField_eq_zero_iff]
  cases i with
  | init => rw [decode_eq_init_iff, opcField_eq_iff, argField_eq_iff]; rfl
  | absorb len => rw [decode_eq_absorb_iff, opcField_eq_iff, argField_eq_iff]; rfl
  | final outlen => rw [decode_eq_final_iff, opcField_eq_iff, argField_eq_iff]; rfl

namespace Sys2Proof.Machine

/-- R74: the legal words are those that decode. -/
theorem legalWord_iff_exists_decode (w : Word) : legalWord w ↔ ∃ i, decode w = .ok i := by
  have harg := argField_toNat w
  constructor
  · rintro ⟨hopc | hopc | hopc, hrsv, hinit, habsorb⟩
    · exact ⟨.init, (decodeFollowsTheFields w _).2 ⟨hrsv, hopc, hinit hopc⟩⟩
    · exact ⟨.absorb (argField w),
        (decodeFollowsTheFields w _).2 ⟨hrsv, hopc, harg.symm, harg ▸ habsorb hopc⟩⟩
    · exact ⟨.final (argField w), (decodeFollowsTheFields w _).2 ⟨hrsv, hopc, harg.symm⟩⟩
  · rintro ⟨i, hd⟩
    obtain ⟨hrsv, hi⟩ := (decodeFollowsTheFields w i).1 hd
    cases i with
    | init =>
      obtain ⟨hopc, hzero⟩ := hi
      exact ⟨.inl hopc, hrsv, fun _ => hzero, by omega⟩
    | absorb len =>
      obtain ⟨hopc, hlen, hle⟩ := hi
      exact ⟨.inr (.inl hopc), hrsv, by omega, fun _ => hlen ▸ hle⟩
    | final outlen =>
      obtain ⟨hopc, _⟩ := hi
      exact ⟨.inr (.inr hopc), hrsv, by omega, by omega⟩

/-- R74, R75: decoding is total, so a word that is not legal has its reason. -/
theorem exists_decode_error_of_not_legalWord {w : Word} (h : ¬ legalWord w) :
    ∃ e, decode w = .error e := by
  cases hd : decode w with
  | ok i => exact absurd ((legalWord_iff_exists_decode w).2 ⟨i, hd⟩) h
  | error e => exact ⟨e, rfl⟩

end Sys2Proof.Machine

/-- Settles O3: an illegal word decodes to its reason, and the step that completes it raises the error. -/
theorem illegalWordsChangeOnlyErr : Obligations.IllegalWordsChangeOnlyErr := by
  refine ⟨legalWord_iff_exists_decode, fun s w hr hp hb hw => ?_⟩
  obtain ⟨e, hd⟩ := exists_decode_error_of_not_legalWord hw
  exact step_completes_illegal hr hp hb hd

end

section
/-! PROOF of the initial chaining value and of what INIT loads (spec 40_param_init.md R95, R96; 42_streaming.md
R150). -/

namespace Sys2Proof.Machine

/-- R26, R96: state initialization leaves the FRESH phase. -/
@[simp] theorem phase_initial : phase HashState.initial = .fresh := by
  rw [phase_of_f0_eq_zero initial_f0, if_pos ⟨initial_t0, initial_t1, initial_bufLen⟩]

end Sys2Proof.Machine

open Sys2Proof Sys2Proof.Machine

/-- Settles O8: the formula through the parameter block, and the table of R95. -/
theorem initialChainIsIvXorParameters : Obligations.InitialChainIsIvXorParameters :=
  ⟨getElem_hInit, hInit_eq_table⟩

/-- Settles O9: INIT tests no condition, and the hash state it loads is `HashState.initial`, as for reset. -/
theorem initLoadsTheInitialState : Obligations.InitLoadsTheInitialState := by
  intro s
  have hexec : exec .init s =
      .next { s with hash := HashState.initial, err := .ok, pending := none, busyLeft := 0 } :=
    execInit_eq s
  have hchain : ∀ i : Fin 8, HashState.initial.h[i] = hInit[i] := fun _ => rfl
  exact ⟨HashState.initial, hexec, hchain, initial_t0, initial_t1, initial_f0, initial_f1,
    Memory.read_nil, initial_bufLen, phase_initial, applyReset_hash s⟩

end

section
/-! PROOF of the round's two steps and of the compression's twelve rounds (spec 41_compression.md R112, R115 to
R117). A step of a round is four applications of G on sixteen distinct positions, so each application finds
and leaves its four words as if it were alone. -/

namespace Sys2Proof.Machine

/-- R115: one application of G, on the positions `p 0`, ..., `p 3`. -/
def mixAt (p : Fin 4 → Fin 16) (x y : Word) (v : Vector Word 16) : Vector Word 16 :=
  mix v (p 0) (p 1) (p 2) (p 3) x y

/-- R115: an application of G changes no word but the four it writes. -/
theorem getElem_mixAt_of_ne {p : Fin 4 → Fin 16} {n : Fin 16} (h : ∀ k, p k ≠ n) (x y : Word)
    (v : Vector Word 16) : (mixAt p x y v)[n] = v[n] := by
  simp [mixAt, mix, Fin.val_inj, h]

/-- R115: an application of G on four distinct positions leaves its results there. -/
theorem getElem_mixAt_eq_g {p : Fin 4 → Fin 16} (hp : Function.Injective p) (x y : Word)
    (v : Vector Word 16) :
    ((mixAt p x y v)[p 0], (mixAt p x y v)[p 1], (mixAt p x y v)[p 2], (mixAt p x y v)[p 3]) =
      g v[p 0] v[p 1] v[p 2] v[p 3] x y := by
  simp [mixAt, mix, Fin.val_inj, hp.eq_iff]

/-- Applications of G in turn: application `i` on the positions `pos i` with the message words `x i`, `y i`. -/
def mixInTurn (pos : Fin 4 → Fin 4 → Fin 16) (x y : Fin 4 → Word) (is : List (Fin 4)) (v : Vector Word 16) :
    Vector Word 16 :=
  is.foldl (fun v i => mixAt (pos i) (x i) (y i) v) v

theorem mixInTurn_cons (pos : Fin 4 → Fin 4 → Fin 16) (x y : Fin 4 → Word) (j : Fin 4) (is : List (Fin 4))
    (v : Vector Word 16) :
    mixInTurn pos x y (j :: is) v = mixInTurn pos x y is (mixAt (pos j) (x j) (y j) v) := rfl

/-- The word at a position that none of the applications has is unchanged. -/
theorem getElem_mixInTurn_of_ne {pos : Fin 4 → Fin 4 → Fin 16} {x y : Fin 4 → Word} {is : List (Fin 4)}
    {n : Fin 16} (h : ∀ i ∈ is, ∀ k, pos i k ≠ n) (v : Vector Word 16) :
    (mixInTurn pos x y is v)[n] = v[n] := by
  induction is generalizing v with
  | nil => rfl
  | cons j is ih =>
    obtain ⟨hj, his⟩ := List.forall_mem_cons.1 h
    rw [mixInTurn_cons, ih his, getElem_mixAt_of_ne hj]

/-- R115: where all positions are distinct, the order of the applications does not matter: each of them leaves
G of the words that stood at its positions before the first. -/
theorem getElem_mixInTurn_eq_g {pos : Fin 4 → Fin 4 → Fin 16} (hpos : Function.Injective2 pos)
    {x y : Fin 4 → Word} {is : List (Fin 4)} (his : is.Nodup) {i : Fin 4} (hi : i ∈ is) (v : Vector Word 16) :
    ((mixInTurn pos x y is v)[pos i 0], (mixInTurn pos x y is v)[pos i 1],
      (mixInTurn pos x y is v)[pos i 2], (mixInTurn pos x y is v)[pos i 3]) =
      g v[pos i 0] v[pos i 1] v[pos i 2] v[pos i 3] (x i) (y i) := by
  induction is generalizing v with
  | nil => cases hi
  | cons j is ih =>
    obtain ⟨hj, his⟩ := List.nodup_cons.1 his
    have hapart {a b : Fin 4} (hab : a ≠ b) (k l : Fin 4) : pos a k ≠ pos b l := fun h => hab (hpos h).1
    rw [mixInTurn_cons]
    rcases List.mem_cons.1 hi with rfl | hi
    · have hlater (k : Fin 4) (v : Vector Word 16) : (mixInTurn pos x y is v)[pos i k] = v[pos i k] :=
        getElem_mixInTurn_of_ne (fun a ha l => hapart (ne_of_mem_of_not_mem ha hj) l k) v
      rw [hlater 0, hlater 1, hlater 2, hlater 3, getElem_mixAt_eq_g (hpos.right i)]
    · have hbefore (k : Fin 4) : (mixAt (pos j) (x j) (y j) v)[pos i k] = v[pos i k] :=
        getElem_mixAt_of_ne (fun l => hapart (ne_of_mem_of_not_mem hi hj).symm l k) (x j) (y j) v
      rw [ih his hi, hbefore 0, hbefore 1, hbefore 2, hbefore 3]

/-- R115: the positions of column `i`. -/
def columnPos (i : Fin 4) : Fin 4 → Fin 16 :=
  ![⟨i, by omega⟩, ⟨4 + i, by omega⟩, ⟨8 + i, by omega⟩, ⟨12 + i, by omega⟩]

/-- R115, R119: the positions of diagonal `i`. -/
def diagonalPos (i : Fin 4) : Fin 4 → Fin 16 :=
  ![⟨i, by omega⟩, ⟨4 + (i + 1) % 4, by omega⟩, ⟨8 + (i + 2) % 4, by omega⟩, ⟨12 + (i + 3) % 4, by omega⟩]

theorem columnPos_injective2 : Function.Injective2 columnPos := by
  have h : ∀ i j k l, columnPos i k = columnPos j l → i = j ∧ k = l := by decide
  exact fun i j k l => h i j k l

theorem diagonalPos_injective2 : Function.Injective2 diagonalPos := by
  have h : ∀ i j k l, diagonalPos i k = diagonalPos j l → i = j ∧ k = l := by decide
  exact fun i j k l => h i j k l

/-- R115: the column step is four applications of G, one on each column. -/
theorem columnStep_eq_mixInTurn (m : Vector Word 16) (s : Vector (Fin 16) 16) (v : Vector Word 16) :
    columnStep m s v =
      mixInTurn columnPos (fun i => m[s[2 * i.val]]) (fun i => m[s[2 * i.val + 1]]) [0, 1, 2, 3] v := rfl

/-- R115: the diagonal step is four applications of G, one on each diagonal. -/
theorem diagonalStep_eq_mixInTurn (m : Vector Word 16) (s : Vector (Fin 16) 16) (v : Vector Word 16) :
    diagonalStep m s v =
      mixInTurn diagonalPos (fun i => m[s[8 + 2 * i.val]]) (fun i => m[s[9 + 2 * i.val]]) [0, 1, 2, 3] v := rfl

/-- The four applications of a step are those of 0, ..., 3, each once. -/
theorem four_nodup_and_mem : ([0, 1, 2, 3] : List (Fin 4)).Nodup ∧ ∀ i : Fin 4, i ∈ [0, 1, 2, 3] := by decide

/-- R116: the working vector after the first `r` rounds. -/
def workAfter (m v : Vector Word 16) (r : Nat) : Vector Word 16 :=
  (List.range r).foldl (fun v r => mixRound v m r) v

/-- R116: the rounds run in increasing order. -/
theorem workAfter_succ (m v : Vector Word 16) (r : Nat) :
    workAfter m v (r + 1) = mixRound (workAfter m v r) m r := by
  simp [workAfter, List.range_succ]

/-- R116: all rounds are the first twelve. -/
theorem allRounds_eq_workAfter (m v : Vector Word 16) : allRounds m v = workAfter m v 12 := rfl

/-- R112: the chaining value fills the lower half of the working vector. -/
theorem getElem_initWork_chain (h : Vector Word 8) (t0 t1 f0 f1 : Word) (i : Fin 8) :
    (initWork h t0 t1 f0 f1)[i.val] = h[i] := by
  fin_cases i <;> rfl

/-- R112: the first four IV words follow it, unmixed. -/
theorem getElem_initWork_iv (h : Vector Word 8) (t0 t1 f0 f1 : Word) (i : Fin 4) :
    (initWork h t0 t1 f0 f1)[8 + i.val] = iv[i.val] := by
  fin_cases i <;> rfl

/-- R117: the words of the result. -/
theorem getElem_compress (h : Vector Word 8) (t0 t1 f0 f1 : Word) (block : List Byte) (i : Fin 8) :
    (compress h t0 t1 f0 f1 block)[i] =
      h[i] ^^^ (allRounds (messageWords block) (initWork h t0 t1 f0 f1))[i.val] ^^^
        (allRounds (messageWords block) (initWork h t0 t1 f0 f1))[i.val + 8] := by
  simp [compress, compressOutput]

end Sys2Proof.Machine

open Sys2Proof Sys2Proof.Machine

/-- Settles O14: the vectors are those after 0, 1, ..., 12 rounds. -/
theorem compressRunsTwelveRounds : Obligations.CompressRunsTwelveRounds := fun h t0 t1 f0 f1 block =>
  ⟨workAfter (messageWords block) (initWork h t0 t1 f0 f1), getElem_initWork_chain h t0 t1 f0 f1,
    getElem_initWork_iv h t0 t1 f0 f1, rfl, rfl, rfl, rfl, fun r _ => workAfter_succ _ _ r,
    getElem_compress h t0 t1 f0 f1 block⟩

/-- Settles O12: both steps are applications of G on sixteen distinct positions. -/
theorem roundMixesColumnsThenDiagonals : Obligations.RoundMixesColumnsThenDiagonals := by
  obtain ⟨hnodup, hmem⟩ := four_nodup_and_mem
  refine ⟨fun v m r => rfl, fun v m s i => ?_, fun v m s i => ?_⟩
  · rw [columnStep_eq_mixInTurn]
    exact getElem_mixInTurn_eq_g columnPos_injective2 hnodup (hmem i) v
  · rw [diagonalStep_eq_mixInTurn]
    exact getElem_mixInTurn_eq_g diagonalPos_injective2 hnodup (hmem i) v

end

section
/-! PROOF of the byte counter as a 128-bit number (spec 42_streaming.md R140). -/

namespace Sys2Proof.Machine

/-- R140: the comparison of the new low word with the addend finds the carry out of the low word. -/
theorem add_lt_addend_iff (a b : Word) : a + b < b ↔ 2 ^ 64 ≤ a.toNat + b.toNat := by
  rw [BitVec.lt_def, BitVec.toNat_add]
  omega

/-- R140: `IncrementCounter` is addition modulo 2^128. -/
theorem counter_incrementCounter (x : HashState) {n : Nat} (hn : n < 2 ^ 64) :
    counter (incrementCounter n x) = (counter x + n) % 2 ^ 128 := by
  have hword : (BitVec.ofNat 64 n).toNat = n := Nat.mod_eq_of_lt hn
  have hcarry := add_lt_addend_iff x.t0 (BitVec.ofNat 64 n)
  have hone : (1 : Word).toNat = 1 := rfl
  rw [hword] at hcarry
  simp only [counter, incrementCounter, BitVec.toNat_add, hword]
  split_ifs with hlt
  · rw [hcarry] at hlt
    rw [BitVec.toNat_add, hone]
    omega
  · rw [hcarry] at hlt
    omega

/-- R20, R140: the counter holds a number modulo 2^128 exactly when its words are the number's. -/
theorem counter_eq_mod_iff (x : HashState) (n : Nat) :
    counter x = n % 2 ^ 128 ↔ x.t0 = counterLow n ∧ x.t1 = counterHigh n := by
  rw [counter, counterLow, counterHigh, ← BitVec.toNat_inj, ← BitVec.toNat_inj, BitVec.toNat_ofNat,
    BitVec.toNat_ofNat]
  omega

end Sys2Proof.Machine

open Sys2Proof Sys2Proof.Machine

/-- Settles O15: the two words are added with the carry that the comparison finds, and the definition writes
only them. -/
theorem incrementCounterIs128BitAddition : Obligations.IncrementCounterIs128BitAddition :=
  fun x _ hn => ⟨counter_incrementCounter x hn, rfl⟩

end

section
/-! PROOF of `Update` on every chunking of a byte stream, and of the hash state as a function of the bytes
absorbed (spec 42_streaming.md R142 to R144). -/

namespace Sys2Proof.Machine

theorem sameStream.refl (x : HashState) : sameStream x x := ⟨rfl, rfl, rfl, rfl, rfl, rfl, rfl⟩

theorem sameStream.trans {x y z : HashState} (a : sameStream x y) (b : sameStream y z) : sameStream x z :=
  ⟨a.h.trans b.h, a.t0.trans b.t0, a.t1.trans b.t1, a.f0.trans b.f0, a.f1.trans b.f1,
    a.bufLen.trans b.bufLen, a.valid.trans b.valid⟩

/-- R144: states that agree in the chain and in the valid bytes agree in every observable component. -/
theorem sameStream_of_chain {x y : HashState} (hc : sameChain x y) (hv : validBytes x = validBytes y) :
    sameStream x y := by
  have hlen : x.bufLen.val = y.bufLen.val := by rw [← validBytes_length, ← validBytes_length, hv]
  exact ⟨hc.h, hc.t0, hc.t1, hc.f0, hc.f1, Fin.ext hlen, hv⟩

/-- R141: two updates agree where consuming their streams leaves the same bytes and the same chain. -/
theorem update_sameStream_of_absorbStream {x y : HashState} {d e : List Byte} (hx : Memory.wf x.buf)
    (hy : Memory.wf y.buf)
    (hrest : (absorbStream (validBytes x ++ d) x).1 = (absorbStream (validBytes y ++ e) y).1)
    (hchain : sameChain (absorbStream (validBytes x ++ d) x).2 (absorbStream (validBytes y ++ e) y).2) :
    sameStream (update d x) (update e y) := by
  obtain ⟨hxv, -, hxc⟩ := update_stream d hx.1
  obtain ⟨hyv, -, hyc⟩ := update_stream e hy.1
  exact sameStream_of_chain (hxc.trans (hchain.trans hyc.symm)) (by rw [hxv, hyv, hrest])

/-- R24: an empty buffer has no valid byte. -/
theorem validBytes_eq_nil {x : HashState} (h : x.bufLen = 0) : validBytes x = [] := by
  simp [validBytes, h]

/-- R24: the valid bytes of a full buffer are the block. -/
theorem validBytes_eq_bufBlock {x : HashState} (h : x.bufLen.val = 128) : validBytes x = bufBlock x.buf := by
  rw [validBytes, h]
  rfl

/-- R142: from a full buffer, `Update` with at least one byte is `Update` from any state `y` with an empty
buffer and the chain that counting and compressing the block leaves. -/
theorem update_of_full {x y : HashState} {d : List Byte} (hx : Memory.wf x.buf) (hy : Memory.wf y.buf)
    (hfull : x.bufLen.val = 128) (hempty : y.bufLen = 0)
    (hchain : sameChain (absorbBlock (bufBlock x.buf) x) y) (hd : 1 ≤ d.length) :
    sameStream (update d x) (update d y) := by
  have hstream : absorbStream (validBytes x ++ d) x = absorbStream d (absorbBlock (bufBlock x.buf) x) := by
    rw [validBytes_eq_bufBlock hfull, absorbStream_of_gt (by simp; omega),
      List.take_left' (bufBlock_length _), List.drop_left' (bufBlock_length _)]
  obtain ⟨hrest, hchain⟩ := absorbStream_chain hchain d
  apply update_sameStream_of_absorbStream hx hy
  · rw [hstream, hrest, validBytes_eq_nil hempty, List.nil_append]
  · rw [hstream, validBytes_eq_nil hempty, List.nil_append]
    exact hchain

/-- R142: from an empty buffer, a whole block is buffered and not compressed. -/
theorem update_block_of_empty {x : HashState} {d : List Byte} (hw : Memory.wf x.buf) (hempty : x.bufLen = 0)
    (hd : d.length = 128) : sameChain (update d x) x ∧ validBytes (update d x) = d := by
  obtain ⟨hvalid, -, hchain⟩ := update_stream d hw.1
  rw [validBytes_eq_nil hempty, List.nil_append, absorbStream_of_le hd.le] at hvalid hchain
  exact ⟨hchain, hvalid⟩

/-- R144: two updates in turn are one update with both pieces. -/
theorem update_update {x : HashState} (hw : Memory.wf x.buf) (d e : List Byte) :
    sameStream (update e (update d x)) (update (d ++ e) x) := by
  obtain ⟨hvalid, -, hchain⟩ := update_stream d hw.1
  have hsplit := absorbStream_append (validBytes x ++ d) e x
  rw [List.append_assoc] at hsplit
  obtain ⟨hrest, hchain⟩ := absorbStream_chain hchain (validBytes (update d x) ++ e)
  rw [hvalid] at hrest hchain
  apply update_sameStream_of_absorbStream (update_wf d hw) hw
  · rw [hsplit, hvalid, hrest]
  · rw [hsplit, hvalid]
    exact hchain

/-- R144: one update per piece, in order. -/
def updateAll (pieces : List (List Byte)) (x : HashState) : HashState :=
  pieces.foldl (fun x b => update b x) x

@[simp] theorem updateAll_nil (x : HashState) : updateAll [] x = x := rfl

@[simp] theorem updateAll_cons (d : List Byte) (pieces : List (List Byte)) (x : HashState) :
    updateAll (d :: pieces) x = updateAll pieces (update d x) := rfl

theorem updateAll_wf {x : HashState} (hw : Memory.wf x.buf) (pieces : List (List Byte)) :
    Memory.wf (updateAll pieces x).buf := by
  induction pieces generalizing x with
  | nil => exact hw
  | cons d pieces ih => exact ih (update_wf d hw)

/-- R141: updates never write the finalization flags. -/
theorem updateAll_f0 (pieces : List (List Byte)) (x : HashState) : (updateAll pieces x).f0 = x.f0 := by
  induction pieces generalizing x with
  | nil => rfl
  | cons d pieces ih => rw [updateAll_cons, ih, (update_flags d x).1]

/-- R144: the updates of any chunking are one update with the concatenation. -/
theorem updateAll_sameStream {x : HashState} (hw : Memory.wf x.buf) (pieces : List (List Byte)) :
    sameStream (updateAll pieces x) (update pieces.flatten x) := by
  induction pieces generalizing x with
  | nil => exact .refl x
  | cons d pieces ih => exact (ih (update_wf d hw)).trans (update_update hw d pieces.flatten)

/-- R145: the finalized chaining value is a function of the observable components. -/
theorem finalize_h_congr {x y : HashState} (hx : Memory.wf x.buf) (hy : Memory.wf y.buf)
    (h : sameStream x y) (mode : LastNodeMode) : (finalize mode x).h = (finalize mode y).h := by
  have hcount : sameChain (incrementCounter x.bufLen x) (incrementCounter x.bufLen y) :=
    incrementCounter_chain ⟨h.h, h.t0, h.t1, h.f0, h.f1⟩ x.bufLen
  rw [finalize_h, finalize_h, bufBlock_bufPad hx.1, bufBlock_bufPad hy.1, ← h.bufLen, h.h, h.valid,
    hcount.t0, hcount.t1]

/-- R144, R148: so it is the same for every chunking. -/
theorem finalize_updateAll_h {x : HashState} (hw : Memory.wf x.buf) (pieces : List (List Byte))
    (mode : LastNodeMode) :
    (finalize mode (updateAll pieces x)).h = (finalize mode (update pieces.flatten x)).h :=
  finalize_h_congr (updateAll_wf hw pieces) (update_wf _ hw) (updateAll_sameStream hw pieces) mode

/-- R143: the chain of `x` is the one after the first `k` blocks of `msg`. -/
structure compressedBlocks (msg : List Byte) (k : Nat) (x : HashState) : Prop where
  h : x.h = chainAfter msg k
  count : counter x = 128 * k % 2 ^ 128
  f0 : x.f0 = 0
  f1 : x.f1 = 0

theorem compressedBlocks_initial (msg : List Byte) : compressedBlocks msg 0 HashState.initial :=
  ⟨rfl, rfl, rfl, rfl⟩

theorem compressedBlocks.of_chain {msg : List Byte} {k : Nat} {x y : HashState}
    (hx : compressedBlocks msg k x) (hc : sameChain y x) : compressedBlocks msg k y :=
  ⟨hc.h.trans hx.h, by rw [counter, hc.t0, hc.t1]; exact hx.count, hc.f0.trans hx.f0, hc.f1.trans hx.f1⟩

/-- R141, R143: counting and compressing the next block of the message. -/
theorem compressedBlocks.absorbBlock {msg : List Byte} {k : Nat} {x : HashState}
    (hx : compressedBlocks msg k x) :
    compressedBlocks msg (k + 1) (absorbBlock ((msg.drop (128 * k)).take 128) x) := by
  have hcount : counter (incrementCounter 128 x) = 128 * (k + 1) % 2 ^ 128 := by
    rw [counter_incrementCounter x (by decide), hx.count, Nat.mod_add_mod, Nat.mul_succ]
  obtain ⟨ht0, ht1⟩ := (counter_eq_mod_iff _ _).1 hcount
  refine ⟨?_, hcount, hx.f0, hx.f1⟩
  simp [Machine.absorbBlock, chainAfter, ht0, ht1, hx.h, hx.f0, hx.f1]

/-- R143: consuming the rest of the message compresses the blocks before its last, and leaves the bytes behind
them. -/
theorem compressedBlocks.absorbStream {msg : List Byte} {k m : Nat} {x : HashState}
    (hx : compressedBlocks msg k x) (hk : k + m = wholeBlocksBefore msg.length) :
    (absorbStream (msg.drop (128 * k)) x).1 = msg.drop (128 * wholeBlocksBefore msg.length) ∧
      compressedBlocks msg (wholeBlocksBefore msg.length) (absorbStream (msg.drop (128 * k)) x).2 := by
  have hblocks : wholeBlocksBefore msg.length = (msg.length - 1) / 128 := rfl
  induction m generalizing k x with
  | zero =>
    rw [absorbStream_of_le (by rw [List.length_drop]; omega), ← hk]
    exact ⟨rfl, hx⟩
  | succ m ih =>
    rw [absorbStream_of_gt (by rw [List.length_drop]; omega), List.drop_drop]
    exact ih hx.absorbBlock (by omega)

/-- R143: the hash state after one update with the whole message. -/
theorem update_initial (msg : List Byte) :
    validBytes (update msg HashState.initial) = msg.drop (128 * wholeBlocksBefore msg.length) ∧
      compressedBlocks msg (wholeBlocksBefore msg.length) (update msg HashState.initial) := by
  obtain ⟨hvalid, -, hchain⟩ := update_stream msg (x := HashState.initial) Memory.wf_nil.1
  obtain ⟨hrest, hblocks⟩ := (compressedBlocks_initial msg).absorbStream (Nat.zero_add _)
  rw [validBytes_eq_nil initial_bufLen, List.nil_append] at hvalid hchain
  exact ⟨hvalid.trans hrest, hblocks.of_chain hchain⟩

end Sys2Proof.Machine

open Sys2Proof Sys2Proof.Machine

/-- Settles O16: the boundary cases of `Update` as a function of the stream. -/
theorem updateAtTheBlockBoundary : Obligations.UpdateAtTheBlockBoundary := by
  refine ⟨update_nil, fun x d hw hfull hd => ?_, fun x d hw hempty hd => ?_⟩
  · exact update_of_full hw hw hfull rfl ⟨rfl, rfl, rfl, rfl, rfl⟩ hd
  · obtain ⟨hchain, hvalid⟩ := update_block_of_empty hw hempty hd
    exact ⟨hchain.h, by rw [counter, counter, hchain.t0, hchain.t1],
      by rw [← validBytes_length, hvalid, hd], hvalid⟩

/-- Settles O17, by induction on the pieces. -/
theorem chunkingDoesNotMatter : Obligations.ChunkingDoesNotMatter :=
  fun _ pieces hw => ⟨updateAll_sameStream hw pieces, finalize_updateAll_h hw pieces⟩

/-- Settles O18: the chunking does not matter, and one update with the whole message compresses the blocks
before its last. -/
theorem streamStateAfterUpdates : Obligations.StreamStateAfterUpdates := by
  intro pieces msg y k
  have hsame : sameStream y (update msg HashState.initial) := updateAll_sameStream Memory.wf_nil pieces
  obtain ⟨hvalid, hblocks⟩ := update_initial msg
  obtain ⟨hh, hcount, hf0, hf1⟩ :=
    hblocks.of_chain (y := y) ⟨hsame.h, hsame.t0, hsame.t1, hsame.f0, hsame.f1⟩
  have hbytes : validBytes y = msg.drop (128 * k) := hsame.valid.trans hvalid
  exact ⟨hcount, by rw [← validBytes_length, hbytes, List.length_drop], hbytes, hh, hf0, hf1⟩

end

section
/-! PROOF of FINAL by its cases, and of what leaves a finalized state (spec 42_streaming.md R145 to R147). -/

namespace Sys2Proof.Machine

/-- R152: FINAL with one of its two errors completes with that error and no other write. -/
theorem exec_final_failed {n : BitVec 8} {s : State} (h : n.toNat < 32 ∨ s.hash.f0 ≠ 0) :
    ∃ c, exec (.final n) s = .next (complete c s) := by
  by_cases hn : n.toNat < 32
  · exact ⟨_, execFinal_small hn⟩
  · exact ⟨_, execFinal_finalized (Nat.not_lt.1 hn) (h.resolve_left hn)⟩

/-- R147, R152: what FINAL leaves in the hash state and in DIGEST does not depend on STATUS.ERR. -/
theorem exec_final_after_complete {n : BitVec 8} (hn : 32 ≤ n.toNat) (c : ErrCode) (s : State) :
    ∃ u v, exec (.final n) (complete c s) = .next u ∧ exec (.final n) s = .next v ∧
      u.hash = v.hash ∧ u.digest = v.digest := by
  by_cases hf : s.hash.f0 = 0
  · exact ⟨_, _, execFinal_ok hn hf, execFinal_ok hn hf, rfl, rfl⟩
  · exact ⟨_, _, execFinal_finalized hn hf, execFinal_finalized hn hf, rfl, rfl⟩

/-- R140, R145: finalization counts the buffered bytes. -/
theorem counter_finalize (mode : LastNodeMode) (x : HashState) :
    counter (finalize mode x) = (counter x + x.bufLen.val) % 2 ^ 128 :=
  counter_incrementCounter x (by omega)

/-- R146: the only command that writes F0 of a finalized state is INIT. -/
theorem eq_init_of_exec_f0_ne {i : Instr} {s t : State} (h : exec i s = .next t) (hf : s.hash.f0 ≠ 0)
    (hne : t.hash.f0 ≠ s.hash.f0) : i = .init := by
  obtain ⟨c, -, he⟩ | ⟨hi, -⟩ | ⟨_, -, -, hzero, -⟩ | ⟨_, -, -, hzero, -⟩ := exec_cases i s
  · rw [he] at h
    cases h
    exact absurd rfl hne
  · exact hi
  · exact absurd hzero hf
  · exact absurd hzero hf

end Sys2Proof.Machine

open Sys2Proof Sys2Proof.Machine

/-- Settles O24: a failed FINAL writes only STATUS.ERR, which the retry does not read. -/
theorem failedFinalLosesNothing : Obligations.FailedFinalLosesNothing := by
  intro s small large hlarge hfail
  obtain ⟨c, hexec⟩ := exec_final_failed hfail
  obtain ⟨u, v, hu, hv, hhash, hdigest⟩ := exec_final_after_complete hlarge c s
  exact ⟨_, u, v, hexec, rfl, rfl, hu, hv, hhash, hdigest⟩

/-- Settles O23: the three cases of FINAL; in the last, each component of what `finalize` leaves. -/
theorem finalFinishesTheDigest : Obligations.FinalFinishesTheDigest := by
  refine fun s n => ⟨fun hn => execFinal_small hn, fun hn hf => execFinal_finalized hn hf, fun hn hf hw => ?_⟩
  refine ⟨finalize s.params.lastNodeMode s.hash, _, execFinal_ok hn hf, counter_finalize _ _, finalize_f0 _ _,
    fun hmode => by rw [hmode]; rfl, fun hmode => by rw [hmode]; rfl, finalize_bufLen _ _, ?_,
    fun k => getElem_digestOfChain _ k.val k.isLt, fun a hlo hhi => ?_, fun a ha => ?_⟩
  · rw [← bufBlock_bufPad hw.1]
    rfl
  · rw [finalize_buf, read_bufPad hw.1, if_pos ⟨hlo, hhi⟩]
  · rw [finalize_buf, read_bufPad hw.1, if_neg (by omega)]

/-- Settles O25: only reset and a legal command write the hash state, and of the commands on a finalized state
only INIT does. -/
theorem onlyInitOrResetLeavesFinal : Obligations.OnlyInitOrResetLeavesFinal := by
  refine ⟨fun s n hf hn => execFinal_finalized hn hf, fun s t hstep hf hne => ?_⟩
  obtain ⟨hr, -⟩ | ⟨i, hp, hx⟩ := step_hash_cases hstep fun h => hne (by rw [h])
  · exact .inl hr
  · rw [eq_init_of_exec_f0_ne hx hf hne] at hp
    exact .inr hp

end

section
/-! PROOF of the host sequence HASH (spec 42_streaming.md R154; 30_encoding.md R77): what the engine does with
each of the accesses the sequence makes, and with their concatenation. -/

namespace Sys2Proof

/-! R71, R73: the fields of an encoded word. -/

theorem opcField_commandWord (opc arg : BitVec 8) : opcField (commandWord opc arg) = opc := by
  rw [opcField_eq_iff, commandWord_toNat]
  omega

theorem argField_commandWord (opc arg : BitVec 8) : argField (commandWord opc arg) = arg := by
  rw [argField_eq_iff, commandWord_toNat]
  omega

theorem rsvField_commandWord (opc arg : BitVec 8) : rsvField (commandWord opc arg) = 0 := by
  rw [rsvField_eq_zero_iff, commandWord_toNat]
  omega

/-- R73, R75: a well-formed instruction decodes from its word. -/
theorem decode_encode {i : Instr} (h : i.wellFormed = true) : decode (encode i) = .ok i := by
  cases i with
  | init =>
    exact (decode_eq_init_iff _).2
      ⟨rsvField_commandWord _ _, opcField_commandWord _ _, argField_commandWord _ _⟩
  | absorb len =>
    exact (decode_eq_absorb_iff _ _).2
      ⟨rsvField_commandWord _ _, opcField_commandWord _ _, argField_commandWord _ _, of_decide_eq_true h⟩
  | final outlen =>
    exact (decode_eq_final_iff _ _).2
      ⟨rsvField_commandWord _ _, opcField_commandWord _ _, argField_commandWord _ _⟩

end Sys2Proof

namespace Sys2Proof.Machine

/-! R10, R35, R77: the operand bytes of a DATA_IN word made of bytes. -/

theorem wordOfBytes_cons (b : Byte) (bytes : List Byte) :
    wordOfBytes (b :: bytes) = (wordOfBytes bytes <<< 8) ||| b.setWidth 64 := rfl

/-- R8: the lowest byte of a word with a byte put in below. -/
theorem byteOf_push_zero (w : Word) (b : Byte) : byteOf ((w <<< 8) ||| b.setWidth 64) 0 = b := by
  apply BitVec.eq_of_getLsbD_eq
  intro j hj
  have hin : j < 64 := by omega
  simp [byteOf, hj, hin]

/-- R8: the bytes above it are those of the word, one place up. -/
theorem byteOf_push_succ (w : Word) (b : Byte) {k : Nat} (hk : k < 7) :
    byteOf ((w <<< 8) ||| b.setWidth 64) (k + 1) = byteOf w k := by
  apply BitVec.eq_of_getLsbD_eq
  intro j hj
  have habove : b.getLsbD (8 * (k + 1) + j) = false := BitVec.getLsbD_of_ge _ _ (by omega)
  have hin : 8 * (k + 1) + j < 64 := by omega
  have hout : ¬ 8 * (k + 1) + j < 8 := by omega
  have hshift : 8 * (k + 1) + j - 8 = 8 * k + j := by omega
  have hlow : (w <<< 8).getLsbD (8 * (k + 1) + j) = w.getLsbD (8 * k + j) := by
    rw [BitVec.getLsbD_shiftLeft, hshift, decide_eq_true hin, decide_eq_false hout]
    rfl
  rw [byteOf, byteOf, BitVec.getLsbD_extractLsb', BitVec.getLsbD_extractLsb', BitVec.getLsbD_or, hlow,
    BitVec.getLsbD_setWidth, habove, Bool.and_false, Bool.or_false]

/-- R10: byte `k` of a word made of bytes. -/
theorem byteOf_wordOfBytes {bytes : List Byte} {k : Nat} (hk : k < 8) (h : k < bytes.length) :
    byteOf (wordOfBytes bytes) k = bytes[k] := by
  induction bytes generalizing k with
  | nil => simp at h
  | cons b bytes ih =>
    rw [wordOfBytes_cons]
    cases k with
    | zero => exact byteOf_push_zero _ b
    | succ k =>
      rw [byteOf_push_succ _ b (by omega)]
      exact ih (by omega) (by simpa using h)

/-- R77: the command of ABSORBB takes its bytes back out of DATA_IN. -/
theorem operandBytes_wordOfBytes {bytes : List Byte} (h : bytes.length ≤ 8) :
    operandBytes (BitVec.ofNat 8 bytes.length) (wordOfBytes bytes) = bytes := by
  have hlen : (BitVec.ofNat 8 bytes.length).toNat = bytes.length := Nat.mod_eq_of_lt (by omega)
  apply List.ext_getElem
  · rw [operandBytes_length, hlen]
  · intro k _ hk
    simp only [operandBytes, operandByte, List.getElem_map, List.getElem_range]
    exact byteOf_wordOfBytes (by omega) hk

/-! R213: the BUSY interval while no STATUS read waits. -/

/-- R213: a step of the BUSY interval whose oldest access is not a STATUS read only lets time pass. -/
theorem busyWait_of_no_statusRead {s : State} (h : ∀ a ∈ s.port, isStatusRead s.params a = false) :
    busyWait s = { s with busyLeft := s.busyLeft - 1 } := by
  cases hq : s.port with
  | nil => simp [busyWait, hq]
  | cons a rest => simp [busyWait, hq, h a (by simp [hq])]

/-- R213, R216: the BUSY interval ends, with everything else as it was. -/
theorem run_busy {s : State} {w : Word} {n : Nat} (hr : s.resetIn = false) (hp : s.pending = some w)
    (hn : s.busyLeft = n) (hq : ∀ a ∈ s.port, isStatusRead s.params a = false) :
    Host.Core.run Sys2Proof.core n s = .next { s with busyLeft := 0 } := by
  induction n generalizing s with
  | zero => cases s; cases hn; rfl
  | succ n ih =>
    rw [run_succ_of_next (step_busy hr hp (by omega)), busyWait_of_no_statusRead hq]
    exact ih (s := { s with busyLeft := s.busyLeft - 1 }) hr hp (by simp [hn]) hq

/-- Some number of steps takes the engine from `s` to `t`. -/
def runsTo (s t : State) : Prop := ∃ n, Host.Core.run Sys2Proof.core n s = .next t

theorem runsTo.trans {s t u : State} (a : runsTo s t) (b : runsTo t u) : runsTo s u := by
  obtain ⟨m, hm⟩ := a
  obtain ⟨n, hn⟩ := b
  exact ⟨m + n, (run_add hm n).trans hn⟩

theorem runsTo_of_step {s t : State} (h : step s = .next t) : runsTo s t := ⟨1, run_succ_of_next h 0⟩

/-! R61, R77: the accesses of the sequence, one kind at a time. -/

/-- An engine with parameters `p` and hash state `x`, no command in progress, whose port holds the accesses
`q`, none of them a STATUS read. -/
structure serves (p : Params) (x : HashState) (q : List BusAccess) (s : State) : Prop where
  ready : ready s
  params : s.params = p
  hash : s.hash = x
  port : s.port = q
  noStatusRead : ∀ a ∈ q, isStatusRead p a = false

/-- R213: the state in which a command word written to CMD completes: the write has been performed, and the
BUSY interval has passed. -/
def awaited (w : Word) (rest : List BusAccess) (s : State) : State :=
  { respond .written (acceptCommand w { s with port := rest }) with busyLeft := 0 }

@[simp] theorem awaited_params (w : Word) (rest : List BusAccess) (s : State) :
    (awaited w rest s).params = s.params := rfl
@[simp] theorem awaited_hash (w : Word) (rest : List BusAccess) (s : State) :
    (awaited w rest s).hash = s.hash := rfl
@[simp] theorem awaited_dataIn (w : Word) (rest : List BusAccess) (s : State) :
    (awaited w rest s).dataIn = s.dataIn := rfl

/-- R153, R213: a CMD write of a command that, once its time has passed, leads to `u` and completes with
`c`. -/
theorem runsTo_wrCmd {p : Params} {x y : HashState} {rest : List BusAccess} {i : Instr} {s u : State}
    {c : ErrCode} (h : serves p x (wrCmd p i :: rest) s) (hi : i.wellFormed = true)
    (hu : exec i (awaited (encode i) rest s) = .next (complete c u))
    (hframe : u.resetIn = s.resetIn ∧ u.params = s.params ∧ u.port = rest ∧ u.hash = y) :
    runsTo s (complete c u) ∧ serves p y rest (complete c u) := by
  obtain ⟨⟨hr, hp, -⟩, rfl, -, hq, hno⟩ := h
  obtain ⟨hur, hup, huq, huh⟩ := hframe
  have hrest := (List.forall_mem_cons.1 hno).2
  have haccept : step s = .next (respond .written (acceptCommand (encode i) { s with port := rest })) :=
    step_hostWrite hr hp hq rfl (by decide)
  have hbusy := run_busy (s := respond .written (acceptCommand (encode i) { s with port := rest }))
    hr rfl rfl hrest
  have hcomplete : step (awaited (encode i) rest s) = .next (complete c u) :=
    (step_completes_legal (s := awaited (encode i) rest s) hr rfl rfl (decode_encode hi)).trans hu
  exact ⟨(runsTo_of_step haccept).trans (.trans ⟨_, hbusy⟩ (runsTo_of_step hcomplete)),
    ⟨hur.trans hr, rfl, rfl⟩, hup, huh, huq, hrest⟩

/-- R35: a DATA_IN write. -/
theorem runsTo_wrDataIn {p : Params} {x : HashState} {rest : List BusAccess} {v : Word} {s : State}
    (h : serves p x (wr p .dataIn v :: rest) s) :
    ∃ t, runsTo s t ∧ serves p x rest t ∧ t.dataIn = v := by
  obtain ⟨⟨hr, hp, hb⟩, rfl, hx, hq, hno⟩ := h
  exact ⟨_, runsTo_of_step (step_hostWrite hr hp hq rfl (by decide)),
    ⟨⟨hr, hp, hb⟩, rfl, hx, rfl, (List.forall_mem_cons.1 hno).2⟩, rfl⟩

/-- R150: `WR CMD, INIT`. -/
theorem runsTo_init {p : Params} {x : HashState} {rest : List BusAccess} {s : State}
    (h : serves p x (wrCmd p .init :: rest) s) : ∃ t, runsTo s t ∧ serves p HashState.initial rest t :=
  ⟨_, runsTo_wrCmd h rfl (execInit_eq _) ⟨rfl, rfl, rfl, rfl⟩⟩

/-- R77, R151: `ABSORBB`. -/
theorem runsTo_absorbB {p : Params} {x : HashState} {rest : List BusAccess} {bytes : List Byte} {s : State}
    (h : serves p x (absorbB p bytes ++ rest) s) (hbytes : bytes.length ≤ 8) (hf : x.f0 = 0) :
    ∃ t, runsTo s t ∧ serves p (update bytes x) rest t := by
  have hlen : (BitVec.ofNat 8 bytes.length).toNat ≤ 8 := by rw [BitVec.toNat_ofNat]; omega
  obtain ⟨t, hst, ht, hdata⟩ := runsTo_wrDataIn h
  have hexec := execAbsorb_ok (s := awaited (encode (.absorb (BitVec.ofNat 8 bytes.length))) rest t) hlen
    (ht.hash ▸ hf)
  rw [awaited_dataIn, awaited_hash, hdata, ht.hash, operandBytes_wordOfBytes hbytes] at hexec
  obtain ⟨htu, hu⟩ := runsTo_wrCmd ht (decide_eq_true hlen) hexec ⟨rfl, rfl, rfl, rfl⟩
  exact ⟨_, hst.trans htu, hu⟩

/-- R77: `UPDATE`, by induction on its slices. -/
theorem runsTo_updateSlices {p : Params} {x : HashState} {rest : List BusAccess} {slices : List (List Byte)}
    {s : State} (h : serves p x (updateSlices p slices ++ rest) s) (hslices : ∀ b ∈ slices, b.length ≤ 8)
    (hf : x.f0 = 0) : ∃ t, runsTo s t ∧ serves p (updateAll slices x) rest t := by
  induction slices generalizing x s with
  | nil => exact ⟨s, ⟨0, rfl⟩, h⟩
  | cons b slices ih =>
    obtain ⟨hb, hslices⟩ := List.forall_mem_cons.1 hslices
    rw [updateSlices, List.flatMap_cons, List.append_assoc] at h
    obtain ⟨t, hst, ht⟩ := runsTo_absorbB h hb hf
    obtain ⟨u, htu, hu⟩ := ih ht hslices ((update_flags b x).1.trans hf)
    exact ⟨u, hst.trans htu, hu⟩

/-- R152: `WR CMD, FINAL 32`. -/
theorem runsTo_final {p : Params} {x : HashState} {rest : List BusAccess} {s : State}
    (h : serves p x (wrCmd p (.final 32) :: rest) s) (hf : x.f0 = 0) :
    ∃ t, runsTo s t ∧ serves p (finalize p.lastNodeMode x) rest t ∧ t.err = .ok ∧
      t.digest = digestWords (finalize p.lastNodeMode x) := by
  have hexec := execFinal_ok (n := 32) (s := awaited (encode (.final 32)) rest s) (by decide) (h.hash ▸ hf)
  rw [awaited_params, awaited_hash, h.params, h.hash] at hexec
  obtain ⟨hst, ht⟩ := runsTo_wrCmd h rfl hexec ⟨rfl, h.params.symm, rfl, rfl⟩
  exact ⟨_, hst, ht, rfl, rfl⟩

/-- R36, R51: the offsets of DIGEST0 to DIGEST3. -/
theorem regAt_digest : ∀ k : Fin 4, regAt (Reg.digest k).offset = .digest k := by decide

/-- R51, R52: they are slots of the window. -/
theorem digest_offset_aligned :
    ∀ k : Fin 4, (Reg.digest k).offset % 8 = 0 ∧ (Reg.digest k).offset + 8 ≤ 256 := by decide

/-- R36: a DIGEST read. -/
theorem step_rdDigest {s : State} {k : Fin 4} {rest : List BusAccess} (hs : ready s)
    (hq : s.port = rd s.params (.digest k) :: rest) :
    step s = .next { s with port := rest, responses := .data s.digest[k] :: s.responses } := by
  have hread := readsAs_regAt (off := (Reg.digest k).offset) (digest_offset_aligned k).1
    (digest_offset_aligned k).2 s rest hs hq
  rw [regAt_digest] at hread
  exact hread

/-- R36, R61: DIGEST reads, the newest response first. -/
theorem runsTo_rdDigests {s : State} {ks : List (Fin 4)} (hs : ready s)
    (hq : s.port = ks.map fun k => rd s.params (.digest k)) :
    runsTo s { s with
      port := []
      responses := (ks.map fun k => Response.data s.digest[k]).reverse ++ s.responses } := by
  induction ks generalizing s with
  | nil => exact ⟨0, by cases s; cases hq; rfl⟩
  | cons k ks ih =>
    rw [List.map_cons, List.reverse_cons, List.append_assoc]
    exact (runsTo_of_step (step_rdDigest hs hq)).trans (ih hs rfl)

/-- R213(c): a DIGEST read is not a STATUS read. -/
theorem isStatusRead_rdDigest (p : Params) (k : Fin 4) : isStatusRead p (rd p (.digest k)) = false := by
  have hoff : windowOffset p (rd p (.digest k)) = some (Reg.digest k).offset :=
    windowOffset_hostRead p (digest_offset_aligned k).1 (digest_offset_aligned k).2
  simp [isStatusRead, hoff, regAt_digest]

/-- R77: the sequence HASH reads no register but DIGEST0..3. -/
theorem hashSlices_noStatusRead (p : Params) (slices : List (List Byte)) :
    ∀ a ∈ hashSlices p slices, isStatusRead p a = false := by
  have hwrite (r : Reg) (v : Word) : isStatusRead p (wr p r v) = false := rfl
  simp only [hashSlices, updateSlices, absorbB, readDigest, wrCmd, List.cons_append, List.forall_mem_cons,
    List.forall_mem_append, List.forall_mem_flatMap, hwrite, isStatusRead_rdDigest, List.not_mem_nil,
    IsEmpty.forall_iff, implies_true, and_self]

/-- R149, R154: what the sequence HASH leaves in DIGEST is the digest of the bytes, for every slicing. -/
theorem digestWords_updateAll (mode : LastNodeMode) (slices : List (List Byte)) :
    digestWords (finalize mode (updateAll slices HashState.initial)) = digestOf mode slices.flatten :=
  digestWords_congr (finalize_updateAll_h Memory.wf_nil slices mode)

end Sys2Proof.Machine

open Sys2Proof Sys2Proof.Machine

/-- Settles O49: INIT, the slices, FINAL and the four reads, each from the state the one before leaves. -/
theorem hashMacroLeavesTheDigest : Obligations.HashMacroLeavesTheDigest := by
  intro s slices hs hslices hq
  have hserves : serves s.params s.hash (hashSlices s.params slices) s :=
    ⟨hs, rfl, rfl, hq, hashSlices_noStatusRead _ _⟩
  obtain ⟨t, hst, ht⟩ := runsTo_init hserves
  obtain ⟨u, htu, hu⟩ := runsTo_updateSlices ht hslices initial_f0
  obtain ⟨v, huv, hv, herr, hdigest⟩ := runsTo_final hu ((updateAll_f0 _ _).trans initial_f0)
  have hreads := runsTo_rdDigests (ks := [0, 1, 2, 3]) hv.ready (by rw [hv.port, hv.params]; rfl)
  obtain ⟨n, hrun⟩ := hst.trans (htu.trans (huv.trans hreads))
  have hphase : phase v.hash = .final := phase_eq_final (by rw [hv.hash, finalize_f0]; decide)
  exact ⟨n, _, hrun, rfl, hv.ready.2.1, herr, hphase, hdigest.trans (digestWords_updateAll _ _), rfl⟩

end

section
/-! PROOF of the errors a command reports and of their order (spec 60_exceptions.md R182, R186; 42_streaming.md
R151, R152). -/

namespace Sys2Proof.Machine

/-- R74, R75: a legal word whose OPC is ABSORB's decodes to the ABSORB of its ARG field, at most 8 bytes. -/
theorem decode_of_legalWord_absorb {w : Word} (h : legalWord w) (hopc : w.toNat % 256 = 2) :
    decode w = .ok (.absorb (argField w)) ∧ (argField w).toNat ≤ 8 := by
  obtain ⟨-, hrsv, -, habsorb⟩ := h
  have hlen : (argField w).toNat ≤ 8 := argField_toNat w ▸ habsorb hopc
  exact ⟨(decodeFollowsTheFields w _).2 ⟨hrsv, hopc, (argField_toNat w).symm, hlen⟩, hlen⟩

/-- R74, R75: a legal word whose OPC is FINAL's decodes to the FINAL of its ARG field. -/
theorem decode_of_legalWord_final {w : Word} (h : legalWord w) (hopc : w.toNat % 256 = 3) :
    decode w = .ok (.final (argField w)) := by
  obtain ⟨-, hrsv, -⟩ := h
  exact (decodeFollowsTheFields w _).2 ⟨hrsv, hopc, (argField_toNat w).symm⟩

end Sys2Proof.Machine

open Sys2Proof Sys2Proof.Machine

/-- Settles O27: an illegal word is rejected before its meaning is looked at; a legal FINAL or ABSORB runs its
meaning, which checks OUTLEN before the flag. -/
theorem errorsComeInPriorityOrder : Obligations.ErrorsComeInPriorityOrder := by
  intro s w hr hp hb
  refine ⟨illegalWordsChangeOnlyErr.2 s w hr hp hb, fun hw hopc hsmall => ?_, fun hw hopc hlarge hf => ?_,
    fun hw hopc hf => ?_⟩
  · rw [step_completes_legal hr hp hb (decode_of_legalWord_final hw hopc)]
    exact execFinal_small ((argField_toNat w).symm ▸ hsmall)
  · rw [step_completes_legal hr hp hb (decode_of_legalWord_final hw hopc)]
    exact execFinal_finalized ((argField_toNat w).symm ▸ hlarge) hf
  · obtain ⟨hd, hlen⟩ := decode_of_legalWord_absorb hw hopc
    rw [step_completes_legal hr hp hb hd]
    exact execAbsorb_finalized hlen hf

/-- Settles O20: the two checks of ABSORB, each where it decides. -/
theorem absorbAfterFinalIsRejected : Obligations.AbsorbAfterFinalIsRejected :=
  ⟨fun _ _ hlen hf => execAbsorb_finalized hlen hf, fun _ _ hlen => execAbsorb_illegal hlen⟩

end

section
/-! PROOF that encoding and decoding are inverse to each other (spec 30_encoding.md R73, R75). -/

namespace Sys2Proof

/-- R74, R75: every decoded instruction is well-formed. -/
theorem wellFormed_of_decode {w : Word} {i : Instr} (h : decode w = .ok i) : i.wellFormed = true := by
  cases i with
  | init => rfl
  | absorb len =>
    obtain ⟨-, -, -, hlen⟩ := (decode_eq_absorb_iff w len).1 h
    exact decide_eq_true hlen
  | final outlen => rfl

end Sys2Proof

open Sys2Proof Sys2Proof.Machine

/-- Settles O4: both directions, and the number of the encoded word from those of its fields. -/
theorem encodeAndDecodeAgree : Obligations.EncodeAndDecodeAgree :=
  ⟨fun _ hi => decode_encode hi, fun _ _ hd => ⟨wellFormed_of_decode hd, encode_of_decode hd⟩, rfl,
    fun len => commandWord_toNat 2 len, fun outlen => commandWord_toNat 3 outlen⟩

/-- Settles O1: the match on the fields of each word. -/
theorem decodeReadsTheListedWords : Obligations.DecodeReadsTheListedWords :=
  ⟨rfl, rfl, rfl, rfl, rfl, rfl, rfl, rfl, rfl, rfl, rfl, rfl, rfl⟩

end

section
/-! PROOF of what each activity of a step leaves unchanged: one frame lemma for commands, waiting and accesses. -/

namespace Sys2Proof.Machine

/-- R153: a command writes the hash state, STATUS.ERR and DIGEST, ends the BUSY interval, and nothing else. -/
theorem exec_frame {i : Instr} {s t : State} (h : exec i s = .next t) :
    t = { s with hash := t.hash, err := t.err, digest := t.digest, pending := none, busyLeft := 0 } := by
  obtain ⟨c, -, he⟩ | ⟨-, he⟩ | ⟨_, -, -, -, he⟩ | ⟨_, -, -, -, he⟩ := exec_cases i s
  all_goals
    rw [he] at h
    cases h
    rfl

/-- R180: every command completes. -/
theorem exec_next (i : Instr) (s : State) : ∃ t, exec i s = .next t := by
  obtain ⟨_, -, he⟩ | ⟨-, he⟩ | ⟨_, -, -, -, he⟩ | ⟨_, -, -, -, he⟩ := exec_cases i s
  all_goals exact ⟨_, he⟩

/-- R213: a step of the BUSY interval writes the port, its responses and the model's counters only. -/
theorem busyWait_frame (s : State) :
    busyWait s = { s with busyLeft := s.busyLeft - 1, draws := (busyWait s).draws, port := (busyWait s).port,
                          responses := (busyWait s).responses } := by
  cases hq : s.port with
  | nil => simp [busyWait, hq]
  | cons a rest =>
    by_cases ha : isStatusRead s.params a = true
    · simp [busyWait, hq, ha, answerStatusWhileBusy, respond]
    · simp [busyWait, hq, ha]

@[simp] theorem busyWait_params (s : State) : (busyWait s).params = s.params :=
  by rw [busyWait_frame]
@[simp] theorem busyWait_pending (s : State) : (busyWait s).pending = s.pending :=
  by rw [busyWait_frame]
@[simp] theorem busyWait_resetIn (s : State) : (busyWait s).resetIn = s.resetIn :=
  by rw [busyWait_frame]
@[simp] theorem busyWait_busyLeft (s : State) : (busyWait s).busyLeft = s.busyLeft - 1 :=
  by rw [busyWait_frame]
@[simp] theorem busyWait_err (s : State) : (busyWait s).err = s.err :=
  by rw [busyWait_frame]
@[simp] theorem busyWait_dataIn (s : State) : (busyWait s).dataIn = s.dataIn :=
  by rw [busyWait_frame]
@[simp] theorem busyWait_digest (s : State) : (busyWait s).digest = s.digest :=
  by rw [busyWait_frame]

/-- R62, R213: so no engine state changes in it. -/
theorem busyWait_sameEngine (s : State) : sameEngine s (busyWait s) :=
  ⟨(busyWait_params s).symm, (busyWait_hash s).symm, (busyWait_err s).symm, (busyWait_dataIn s).symm,
    (busyWait_digest s).symm⟩

/-- R29, R35, R54: all that an access can do: answer and change no register, issue a command, or store in
DATA_IN. -/
theorem accessWindow_cases (off : Nat) (op : BusOp) (s : State) :
    (∃ r, accessWindow off op s = respond r s) ∨
    (∃ v, accessWindow off op s = respond .written (acceptCommand v s)) ∨
    (∃ v, op = .write v ∧ regAt off = .dataIn ∧
      accessWindow off op s = respond .written { s with dataIn := v }) := by
  cases op with
  | read => exact .inl ⟨_, rfl⟩
  | write v =>
    by_cases hc : regAt off = .cmd
    · exact .inr (.inl ⟨v, by rw [accessWindow, hc, writeReg]⟩)
    · by_cases hd : regAt off = .dataIn
      · exact .inr (.inr ⟨v, rfl, hd, by rw [accessWindow, hd, writeReg]⟩)
      · exact .inl ⟨_, by rw [accessWindow, writeReg_eq_self hc hd]⟩

/-- R36, R54: an access writes no register but DATA_IN, and of the rest of the engine only the pending command. -/
theorem accessWindow_frame (off : Nat) (op : BusOp) (s : State) :
    accessWindow off op s = { s with dataIn := (accessWindow off op s).dataIn,
                                     pending := (accessWindow off op s).pending,
                                     busyLeft := (accessWindow off op s).busyLeft,
                                     draws := (accessWindow off op s).draws,
                                     responses := (accessWindow off op s).responses } := by
  obtain ⟨_, he⟩ | ⟨_, he⟩ | ⟨_, -, -, he⟩ := accessWindow_cases off op s
  all_goals
    rw [he]
    rfl

@[simp] theorem accessWindow_params (off : Nat) (op : BusOp) (s : State) :
    (accessWindow off op s).params = s.params := by rw [accessWindow_frame]
@[simp] theorem accessWindow_resetIn (off : Nat) (op : BusOp) (s : State) :
    (accessWindow off op s).resetIn = s.resetIn := by rw [accessWindow_frame]
@[simp] theorem accessWindow_err (off : Nat) (op : BusOp) (s : State) :
    (accessWindow off op s).err = s.err := by rw [accessWindow_frame]
@[simp] theorem accessWindow_digest (off : Nat) (op : BusOp) (s : State) :
    (accessWindow off op s).digest = s.digest := by rw [accessWindow_frame]

/-- R213: an access that leaves no command pending leaves the BUSY interval as it was. -/
theorem accessWindow_busyLeft {off : Nat} {op : BusOp} {s : State} (h : (accessWindow off op s).pending = none) :
    (accessWindow off op s).busyLeft = s.busyLeft := by
  obtain ⟨_, he⟩ | ⟨_, he⟩ | ⟨_, -, -, he⟩ := accessWindow_cases off op s
  · rw [he, respond_busyLeft]
  · rw [he] at h
    cases h
  · rw [he, respond_busyLeft]

/-- R6, R7: no step writes the parameters. -/
theorem step_params {s t : State} (h : step s = .next t) : t.params = s.params := by
  cases step_cases h with
  | inReset => rfl
  | waits => exact busyWait_params s
  | completes _ _ _ _ hx => rw [exec_frame hx]
  | rejects => rfl
  | performs => exact accessWindow_params _ _ _
  | idle => rfl

end Sys2Proof.Machine

end

section
/-! PROOF of the invariant: it holds at reset, and the commands, every step and every event keep it (spec
10_state.md R23, R27; 20_memory.md R58; 70_reset_and_hazards.md R210, R211). -/

namespace Sys2Proof.Machine

/-! R27: the counter of an unfinalized state counts whole blocks. -/

/-- R141: counting a block keeps T a multiple of 128. -/
theorem counter_absorbBlock_mod (block : List Byte) (x : HashState) :
    counter (absorbBlock block x) % 128 = counter x % 128 := by
  have hcount : counter (absorbBlock block x) = (counter x + 128) % 2 ^ 128 :=
    counter_incrementCounter x (by decide)
  omega

theorem counter_absorbWhole_mod (fuel : Nat) (d : List Byte) (x : HashState) :
    counter (absorbWhole fuel d x).2 % 128 = counter x % 128 := by
  induction fuel generalizing d x with
  | zero => rfl
  | succ fuel ih =>
    rw [absorbWhole]
    split
    · rw [ih, counter_absorbBlock_mod]
    · rfl

/-- R141: the loop compresses a block only where a byte remains behind it. -/
theorem absorbWhole_rest_ne_nil {fuel : Nat} {d : List Byte} (x : HashState) (h : d ≠ []) :
    (absorbWhole fuel d x).1 ≠ [] := by
  induction fuel generalizing d x with
  | zero => exact h
  | succ fuel ih =>
    rw [absorbWhole]
    split
    next hlong => exact ih _ (by rw [← List.length_pos_iff, List.length_drop]; omega)
    next => exact h

/-- R141: after `Update` with at least one byte the buffer is not empty. -/
theorem update_bufLen_ne_zero {d : List Byte} {x : HashState} (hw : Memory.wf x.buf) (hd : d ≠ []) :
    (update d x).bufLen ≠ 0 := by
  obtain ⟨-, hlen, -⟩ := update_stream d hw.1
  have hstream : validBytes x ++ d ≠ [] := List.append_ne_nil_of_right_ne_nil _ hd
  have hrest : 0 < (update d x).bufLen.val :=
    hlen ▸ List.length_pos_iff.2 (absorbWhole_rest_ne_nil x hstream)
  exact Fin.pos_iff_ne_zero.1 hrest

/-! The hash state's invariant, for each command's write to it. -/

/-- R41, R96: state initialization establishes the invariant. -/
theorem HashInv.initial (mode : LastNodeMode) : HashInv mode HashState.initial :=
  ⟨Memory.wf_nil, .inl rfl, rfl, fun _ => rfl, fun _ _ => rfl⟩

/-- R141: `Update` on an unfinalized state keeps it. -/
theorem HashInv.update {mode : LastNodeMode} {x : HashState} (hx : HashInv mode x) (hf : x.f0 = 0)
    (d : List Byte) : HashInv mode (update d x) := by
  obtain ⟨hf0, hf1⟩ := update_flags d x
  obtain ⟨-, -, hchain⟩ := update_stream d hx.bufWf.1
  refine ⟨update_wf d hx.bufWf, by rw [hf0]; exact hx.f0Legal, by rw [hf1, hf0]; exact hx.f1Legal, fun _ => ?_,
    fun _ hempty => ?_⟩
  · rw [counter, hchain.t0, hchain.t1, ← counter, absorbStream, counter_absorbWhole_mod]
    exact hx.wholeBlocks hf
  · obtain rfl : d = [] := by_contra fun hd => update_bufLen_ne_zero hx.bufWf hd hempty
    exact hx.emptyIsInitial hf hempty

/-- R145: `Finalize` keeps it. -/
theorem HashInv.finalize {mode : LastNodeMode} {x : HashState} (hx : HashInv mode x) :
    HashInv mode (finalize mode x) := by
  have hset : (Machine.finalize mode x).f0 ≠ 0 := by rw [finalize_f0]; decide
  exact ⟨bufPad_wf hx.bufWf (by omega), .inr rfl, by rw [if_neg hset, finalize_f1],
    fun hzero => absurd hzero hset, fun hzero => absurd hzero hset⟩

/-- R153: every command keeps it. -/
theorem exec_hashInv {i : Instr} {s t : State} (hs : HashInv s.params.lastNodeMode s.hash)
    (h : exec i s = .next t) : HashInv s.params.lastNodeMode t.hash := by
  obtain ⟨c, -, he⟩ | ⟨-, he⟩ | ⟨len, -, -, hf, he⟩ | ⟨n, -, -, -, he⟩ := exec_cases i s
  all_goals
    rw [he] at h
    cases h
  · exact hs
  · exact .initial _
  · exact hs.update hf _
  · exact hs.finalize

/-! The machine's invariant. -/

/-- R210: of a released engine the invariant asks nothing of the reset level. -/
theorem Inv.of_released {s : State} (hr : s.resetIn = false) (hx : HashInv s.params.lastNodeMode s.hash)
    (hb : s.pending = none → s.busyLeft = 0) : Inv s :=
  ⟨hx, hb, fun h => Bool.noConfusion (hr.symm.trans h)⟩

/-- R41: the reset values meet the invariant, whatever the parameters, the reset level and the port. -/
theorem Inv.of_applyReset_eq {s : State} (h : s = applyReset s) : Inv s := by
  rw [h]
  exact ⟨.initial _, fun _ => rfl, fun _ => rfl⟩

/-- Every step keeps the invariant. -/
theorem step_inv {s t : State} (hs : Inv s) (h : step s = .next t) : Inv t := by
  have hx := hs.hash
  cases step_cases h with
  | inReset => exact .of_applyReset_eq rfl
  | waits hr hp =>
    refine .of_released ((busyWait_resetIn s).trans hr) (by simpa using hx) fun hnone => ?_
    rw [busyWait_pending, hp] at hnone
    cases hnone
  | completes hr _ _ _ he =>
    have ht := exec_hashInv hx he
    rw [exec_frame he]
    exact .of_released hr ht fun _ => rfl
  | rejects hr => exact .of_released hr hx fun _ => rfl
  | performs hr hp =>
    exact .of_released ((accessWindow_resetIn ..).trans hr) (by simpa using hx) fun hnone =>
      (accessWindow_busyLeft hnone).trans (hs.notBusy hp)
  | idle => exact hs

/-- R210: asserting the reset input leaves the reset values. -/
theorem assertReset_inv {s : State} (hs : Inv s) : Inv (assertReset s) := by
  rw [assertReset]
  split
  · exact hs
  · exact .of_applyReset_eq rfl

/-- R210: and so does releasing it. -/
theorem releaseReset_inv {s : State} (hs : Inv s) : Inv (releaseReset s) := by
  rw [releaseReset]
  split
  · exact .of_applyReset_eq rfl
  · exact hs

/-- R210: an access is presented only to a released engine, and waits behind the others. -/
theorem presentAccess_eq_next {a : BusAccess} {s t : State} (h : presentAccess a s = .next t) :
    s.resetIn = false ∧ t = { s with port := s.port ++ [a] } := by
  rw [presentAccess] at h
  split at h
  next => cases h
  next hr => cases h; exact ⟨Bool.not_eq_true _ ▸ hr, rfl⟩

@[simp] theorem assertReset_params (s : State) : (assertReset s).params = s.params := by
  rw [assertReset]
  split <;> rfl

@[simp] theorem releaseReset_params (s : State) : (releaseReset s).params = s.params := by
  rw [releaseReset]
  split <;> rfl

/-- Every event keeps the invariant and the parameters. -/
theorem react_inv {e : Event} {s t : State} (hs : Inv s) (h : react e s = .next t) :
    Inv t ∧ t.params = s.params := by
  cases e with
  | present a =>
    obtain ⟨hr, rfl⟩ := presentAccess_eq_next h
    exact ⟨.of_released hr hs.hash hs.notBusy, rfl⟩
  | assertReset =>
    cases h
    exact ⟨assertReset_inv hs, assertReset_params s⟩
  | releaseReset =>
    cases h
    exact ⟨releaseReset_inv hs, releaseReset_params s⟩
  | engineStep => exact ⟨step_inv hs h, step_params h⟩

/-- What holds of a reachable state, by induction on how it is reached. -/
theorem Reachable.inv {p : Params} {s : State} (h : Reachable p s) : Inv s ∧ s.params = p := by
  induction h with
  | reset => exact ⟨.of_applyReset_eq rfl, rfl⟩
  | react s t e _ he ih =>
    obtain ⟨hs, hp⟩ := ih
    obtain ⟨ht, hparams⟩ := react_inv hs he
    exact ⟨ht, hparams.trans hp⟩

/-- R26, R27: in the phase FRESH the hash state is the initial one. -/
theorem HashInv.eq_initial_of_fresh {mode : LastNodeMode} {x : HashState} (hx : HashInv mode x)
    (h : phase x = .fresh) : x = HashState.initial := by
  have hf : x.f0 = 0 := by
    by_contra hf
    rw [phase_eq_final hf] at h
    cases h
  rw [phase_of_f0_eq_zero hf] at h
  split at h
  next hzero => exact hx.emptyIsInitial hf hzero.2.2
  next => cases h

end Sys2Proof.Machine

open Sys2Proof Sys2Proof.Machine

/-- Settles O45, by the cases of a step. -/
theorem everyStepKeepsTheInvariant : Obligations.EveryStepKeepsTheInvariant := fun _ _ => step_inv

/-- Settles O50, by the kinds of event. -/
theorem everyEventKeepsTheInvariant : Obligations.EveryEventKeepsTheInvariant := fun _ _ _ => react_inv

/-- Settles O46: reset meets the invariant and every event keeps it. -/
theorem everyReachableStateMeetsTheInvariant : Obligations.EveryReachableStateMeetsTheInvariant :=
  fun _ _ => Reachable.inv

/-- Settles O44: `State.reset` holds the reset values. -/
theorem resetMeetsTheInvariant : Obligations.ResetMeetsTheInvariant := fun _ => .of_applyReset_eq rfl

/-- Settles O10: the hash state that INIT loads is the one a FRESH state has. -/
theorem initFromFreshChangesNothing : Obligations.InitFromFreshChangesNothing := by
  intro s hs hfresh
  have hinit : initState s = s := by rw [initState, ← hs.hash.eq_initial_of_fresh hfresh]
  rw [exec_init, execInit_eq, hinit]
  rfl

end

section
/-! PROOF of rotation and of byte order (spec 00_scope.md R8 to R10). -/

namespace Sys2Proof.Machine

/-- R9: bit `i` comes from the right shift where `i + n` is in the word, and else from the left shift. -/
theorem getLsbD_rotr (x : Word) {n i : Nat} (hpos : 0 < n) (hn : n < 64) (hi : i < 64) :
    (rotr x n).getLsbD i = x.getLsbD ((i + n) % 64) := by
  rw [rotr, BitVec.getLsbD_or, BitVec.getLsbD_ushiftRight, BitVec.getLsbD_shiftLeft, Nat.add_comm n i,
    decide_eq_true hi, Bool.true_and]
  by_cases hin : i + n < 64
  · have hlow : i < 64 - n := by omega
    rw [decide_eq_true hlow, Nat.mod_eq_of_lt hin]
    simp
  · have hhigh : ¬ i < 64 - n := by omega
    have hwrap : (i + n) % 64 = i - (64 - n) := by omega
    rw [BitVec.getLsbD_of_ge x (i + n) (Nat.not_lt.1 hin), decide_eq_false hhigh, hwrap]
    simp

/-- R8: a word is determined by its eight bytes. -/
theorem eq_of_byteOf_eq {v w : Word} (h : ∀ k < 8, byteOf v k = byteOf w k) : v = w := by
  apply BitVec.eq_of_getLsbD_eq
  intro j hj
  have hbit := congrArg (BitVec.getLsbD · (j % 8)) (h (j / 8) (by omega))
  have hin : j % 8 < 8 := by omega
  simpa [byteOf, BitVec.getLsbD_extractLsb', hin, Nat.div_add_mod] using hbit

/-- R10: `load64le` is little-endian. -/
theorem byteOf_load64le {b : List Byte} {k i : Nat} (h : k + 8 ≤ b.length) (hi : i < 8) :
    byteOf (load64le b k) i = b[k + i]'(by omega) := by
  have hlen : i < ((b.drop k).take 8).length := by rw [List.length_take, List.length_drop]; omega
  rw [load64le, byteOf_wordOfBytes hi hlen, List.getElem_take, List.getElem_drop]

@[simp] theorem store64le_length (w : Word) : (store64le w).length = 8 := by
  rw [store64le, List.length_map, List.length_range]

/-- R10: `store64le` is little-endian. -/
theorem getElem_store64le (w : Word) {i : Nat} (hi : i < (store64le w).length) :
    (store64le w)[i] = byteOf w i := by
  simp [store64le]

end Sys2Proof.Machine

open Sys2Proof Sys2Proof.Machine

/-- Settles O5: the two shifts, by whether the bit wraps around. -/
theorem rotrIsTheCircularRightRotation : Obligations.RotrIsTheCircularRightRotation :=
  fun x _ _ => getLsbD_rotr x

/-- Settles O6: loading and storing name the same bytes, and bytes determine a word and a list. -/
theorem loadAndStoreAreLittleEndian : Obligations.LoadAndStoreAreLittleEndian := by
  refine ⟨fun b k i h hi => byteOf_load64le h hi, fun w => ⟨store64le_length w, ?_⟩, fun b k h => ?_⟩
  · apply eq_of_byteOf_eq
    intro i hi
    rw [byteOf_load64le (by simp) hi, getElem_store64le, Nat.zero_add]
  · apply List.ext_getElem
    · rw [store64le_length, List.length_take, List.length_drop]
      omega
    · intro i hi _
      rw [getElem_store64le, byteOf_load64le h (by simpa using hi), List.getElem_take, List.getElem_drop]

end

section
/-! PROOF that sigma's rows are permutations (spec 41_compression.md R114). -/

namespace Sys2Proof.Machine

/-- R114: each row of the table lists every index once. -/
theorem sigma_perm : ∀ r : Fin 10, (sigma[r].toList.map Fin.val).Perm (List.range 16) := by decide

end Sys2Proof.Machine

open Sys2Proof Sys2Proof.Machine

/-- Settles O13: the row of a round is the table's row of its number modulo 10. -/
theorem sigmaRowsArePermutations : Obligations.SigmaRowsArePermutations :=
  ⟨fun r => sigma_perm ⟨r % 10, Nat.mod_lt r (by decide)⟩, fun r => by simp only [sigmaRow, Nat.add_mod_right]⟩

end

section
/-! PROOF that BUF past BUFLEN is never observed (spec 10_state.md R24). -/

namespace Sys2Proof.Machine

theorem sameStream.chain {x y : HashState} (h : sameStream x y) : sameChain x y :=
  ⟨h.h, h.t0, h.t1, h.f0, h.f1⟩

/-- R144: `Update` is a function of the observable components. -/
theorem update_sameStream {x y : HashState} (hx : Memory.wf x.buf) (hy : Memory.wf y.buf)
    (h : sameStream x y) (d : List Byte) : sameStream (update d x) (update d y) := by
  obtain ⟨hrest, hchain⟩ := absorbStream_chain h.chain (validBytes x ++ d)
  apply update_sameStream_of_absorbStream hx hy
  · rw [hrest, h.valid]
  · rw [← h.valid]
    exact hchain

/-- R145: zero-padding leaves the valid bytes as they were. -/
theorem validBytes_finalize {x : HashState} (hw : Memory.wf x.buf) (mode : LastNodeMode) :
    validBytes (finalize mode x) = validBytes x := by
  refine validBytes_congr (finalize_bufLen mode x) fun j hj => ?_
  rw [finalize_bufLen] at hj
  rw [finalize_buf, read_bufPad hw.1, if_neg (by omega)]

/-- R145: `Finalize` is a function of the observable components. -/
theorem finalize_sameStream {x y : HashState} (hx : Memory.wf x.buf) (hy : Memory.wf y.buf)
    (h : sameStream x y) (mode : LastNodeMode) : sameStream (finalize mode x) (finalize mode y) := by
  have hcount := incrementCounter_chain h.chain x.bufLen
  exact ⟨finalize_h_congr hx hy h mode, by rw [finalize_t0, finalize_t0, ← h.bufLen, hcount.t0],
    by rw [finalize_t1, finalize_t1, ← h.bufLen, hcount.t1], rfl, rfl, h.bufLen,
    by rw [validBytes_finalize hx, validBytes_finalize hy, h.valid]⟩

end Sys2Proof.Machine

open Sys2Proof Sys2Proof.Machine

/-- Settles O19: both states take the same case of the command, whose write to the hash state is a function of
the observable components. -/
theorem staleBufferBytesNeverMatter : Obligations.StaleBufferBytesNeverMatter := by
  intro i s x hs hx h
  cases i with
  | init => exact ⟨_, _, execInit_eq _, execInit_eq _, .refl _⟩
  | absorb len =>
    by_cases hl : len.toNat ≤ 8
    · by_cases hf : s.hash.f0 = 0
      · exact ⟨_, _, execAbsorb_ok hl hf, execAbsorb_ok hl (h.f0 ▸ hf), update_sameStream hs hx h _⟩
      · exact ⟨_, _, execAbsorb_finalized hl hf, execAbsorb_finalized hl (h.f0 ▸ hf), h⟩
    · exact ⟨_, _, execAbsorb_illegal (Nat.not_le.1 hl), execAbsorb_illegal (Nat.not_le.1 hl), h⟩
  | final n =>
    by_cases hn : 32 ≤ n.toNat
    · by_cases hf : s.hash.f0 = 0
      · have hsame := finalize_sameStream hs hx h s.params.lastNodeMode
        have hfinal := execFinal_ok (s := { s with hash := x }) hn (h.f0 ▸ hf)
        rw [← digestWords_congr hsame.h] at hfinal
        exact ⟨_, _, execFinal_ok hn hf, hfinal, hsame⟩
      · exact ⟨_, _, execFinal_finalized hn hf, execFinal_finalized hn (h.f0 ▸ hf), h⟩
    · exact ⟨_, _, execFinal_small (Nat.not_le.1 hn), execFinal_small (Nat.not_le.1 hn), h⟩

end

section
/-! PROOF of ABSORB with no error, within a block and across it (spec 42_streaming.md R141, R151). -/

namespace Sys2Proof.Machine

@[simp] theorem bufAppend_nil (x : HashState) : bufAppend [] x = x := by
  have hlen : (bufAppend [] x).bufLen = x.bufLen := Fin.ext (bufAppend_bufLen (by simp; omega))
  calc bufAppend [] x = { x with bufLen := (bufAppend [] x).bufLen } := rfl
    _ = x := by rw [hlen]

/-- R141: data that fits, none included, is copied behind the valid bytes. -/
theorem update_eq_bufAppend {d : List Byte} {x : HashState} (h : x.bufLen + d.length ≤ 128) :
    update d x = bufAppend d x := by
  by_cases hd : d = []
  · rw [hd, update_nil, bufAppend_nil]
  · exact update_of_fits hd h

/-- R35, R151: operand byte `k` that ABSORB hands to Update. -/
theorem getElem_operandBytes {len : BitVec 8} {d : Word} {k : Nat} (h : k < (operandBytes len d).length) :
    (operandBytes len d)[k] = d.extractLsb' (8 * k) 8 := by
  simp [operandBytes, operandByte, byteOf]

/-- R151: the first `n` of the operand bytes. -/
theorem take_operandBytes {len : BitVec 8} {d : Word} {n : Nat} (h : n ≤ len.toNat) :
    (operandBytes len d).take n = (List.range n).map fun k => d.extractLsb' (8 * k) 8 := by
  rw [operandBytes, argCount, ← List.map_take, List.take_range, Nat.min_eq_left h]
  rfl

/-! R59: what an index reads after bytes were stored from index `a` on. -/

theorem read_bufWriteAll_inside {m : Memory} (hw : Memory.wf m) (a : Nat) {data : List Byte} {k : Nat}
    (hk : k < data.length) : Memory.read (a + k) (bufWriteAll a data m) = data[k] := by
  rw [read_bufWriteAll hw.1, if_pos (Nat.le_add_right a k), Nat.add_sub_cancel_left]
  exact List.getD_eq_getElem _ _ hk

theorem read_bufWriteAll_outside {m : Memory} (hw : Memory.wf m) {a i : Nat} {data : List Byte}
    (hi : i < a ∨ a + data.length ≤ i) : Memory.read i (bufWriteAll a data m) = Memory.read i m := by
  rw [read_bufWriteAll hw.1]
  split
  · exact List.getD_eq_default _ _ (by omega)
  · rfl

end Sys2Proof.Machine

open Sys2Proof Sys2Proof.Machine

/-- Settles O21: the operand bytes fit, so Update copies them behind the valid bytes. -/
theorem absorbWithinTheBlock : Obligations.AbsorbWithinTheBlock := by
  intro s len hlen hf hw hfits
  have hcount := operandBytes_length len s.dataIn
  have hupdate := update_eq_bufAppend (d := operandBytes len s.dataIn) (x := s.hash) (by omega)
  have hexec := execAbsorb_ok (s := s) hlen hf
  rw [hupdate] at hexec
  refine ⟨_, _, hexec, ?_, fun k hk => ?_, fun a ha => ?_⟩
  · rw [← hcount]
    exact bufAppend_bufLen (by omega)
  · rw [read_bufWriteAll_inside hw _ (by omega), getElem_operandBytes]
  · exact read_bufWriteAll_outside hw (by omega)

/-- Settles O22: Update fills the block with the first operand bytes, compresses it once, and copies the
remaining bytes to the buffer's start. -/
theorem absorbAcrossTheBlock : Obligations.AbsorbAcrossTheBlock := by
  intro s len hlen hf hw hexceeds fill operand
  have hcount := operandBytes_length len s.dataIn
  generalize hd : operandBytes len s.dataIn = d at hcount
  have hfill : fill = 128 - s.hash.bufLen.val := rfl
  have htake : (d.take fill).length = fill := by rw [List.length_take]; omega
  have hdrop : (d.drop fill).length = len.toNat - fill := by rw [List.length_drop, hcount]
  have hblock : bufBlock (bufTopOff (d.take fill) s.hash).buf =
      validBytes s.hash ++ (List.range fill).map operand := by
    rw [bufBlock_bufTopOff hw.1 (by omega), ← hd, take_operandBytes (by omega)]
  have hupdate := update_of_exceeds_once (d := d) (x := s.hash) (by omega) (by omega)
  have hbuf : (update d s.hash).buf =
      bufWriteAll 0 (d.drop fill) (bufWriteAll s.hash.bufLen (d.take fill) s.hash.buf) := by
    rw [hupdate]; rfl
  have htop : Memory.wf (bufWriteAll s.hash.bufLen (d.take fill) s.hash.buf) := bufWriteAll_wf hw (by omega)
  obtain ⟨hf0, hf1⟩ := update_flags d s.hash
  refine ⟨update d s.hash, hd ▸ execAbsorb_ok hlen hf, ?_, hf0, hf1, ?_, ?_, fun k hk => ?_, fun k hk => ?_,
    fun a ha => ?_⟩
  · rw [hupdate]
    exact counter_incrementCounter s.hash (by decide)
  · rw [update_h_of_exceeds (by omega) (by omega), hf0, hf1, hblock]
  · rw [hupdate, bufAppend_bufLen (by simp; omega), hdrop]
    simp
  · have hin := read_bufWriteAll_inside htop 0 (data := d.drop fill) (k := k) (by omega)
    rw [Nat.zero_add] at hin
    rw [hbuf, hin, List.getElem_drop]
    simp only [← hd, getElem_operandBytes]
    rfl
  · rw [hbuf, read_bufWriteAll_outside htop (by omega), read_bufWriteAll_inside hw _ (by omega), List.getElem_take]
    simp only [← hd, getElem_operandBytes]
    rfl
  · rw [hbuf, read_bufWriteAll_outside htop (by omega), read_bufWriteAll_outside hw (by omega)]

end

section
/-! PROOF of who writes DIGEST, DATA_IN and STATUS.ERR, and of what stops a step (spec 10_state.md R33, R35, R36;
60_exceptions.md R180, R185). -/

namespace Sys2Proof.Machine

/-- R51: the map gives a register its own offset only. -/
theorem offset_regAt : ∀ k < 32, regAt (8 * k) ≠ .reserved → (regAt (8 * k)).offset = 8 * k := by decide

/-- R51, R52: the accesses that reach a register are the 64-bit ones at its offset. -/
theorem eq_of_reaches {p : Params} {a : BusAccess} {op : BusOp} {off : Nat} {r : Reg} (hop : a.op = op)
    (ho : windowOffset p a = some off) (hr : regAt off = r) (hne : r ≠ .reserved) :
    a = { addr := p.base + r.offset, size := accessBytes, op := op } := by
  obtain ⟨ha, h8, hin⟩ := windowOffset_eq_some ho
  obtain ⟨k, rfl⟩ : ∃ k, off = 8 * k := ⟨off / 8, by omega⟩
  rw [← hop, ← hr, offset_regAt k (by omega) (hr ▸ hne)]
  exact ha

/-- R36: the only command that writes DIGEST is a FINAL that raises no error. -/
theorem exec_digest_ne {i : Instr} {s t : State} (h : exec i s = .next t) (hne : t.digest ≠ s.digest) :
    ∃ n : BitVec 8, i = .final n ∧ 32 ≤ n.toNat ∧ s.hash.f0 = 0 ∧ t.err = .ok ∧ t.digest = digestWords t.hash := by
  obtain ⟨c, -, he⟩ | ⟨-, he⟩ | ⟨len, -, -, -, he⟩ | ⟨n, hi, hn, hf, he⟩ := exec_cases i s
  all_goals
    rw [he] at h
    cases h
  · exact absurd rfl hne
  · exact absurd rfl hne
  · exact absurd rfl hne
  · exact ⟨n, hi, hn, hf, rfl, rfl⟩

/-- R153: the step that completes a command, legal or not, and its frame. -/
theorem step_completes {s : State} {w : Word} (hr : s.resetIn = false) (hp : s.pending = some w)
    (hb : s.busyLeft = 0) :
    ∃ t, step s = .next t ∧
      t = { s with hash := t.hash, err := t.err, digest := t.digest, pending := none, busyLeft := 0 } := by
  cases hd : decode w with
  | ok i =>
    obtain ⟨t, he⟩ := exec_next i s
    exact ⟨t, (step_completes_legal hr hp hb hd).trans he, exec_frame he⟩
  | error e => exact ⟨_, step_completes_illegal hr hp hb hd, rfl⟩

/-- R185: a step goes on, or stops at the bus error of the port's oldest access. -/
theorem step_next_or_busError (s : State) :
    (∃ t, step s = .next t) ∨
    (s.resetIn = false ∧ s.pending = none ∧ ∃ a rest, s.port = a :: rest ∧ step s = .fault (.busError a)) := by
  obtain hr | hr := Bool.eq_false_or_eq_true s.resetIn
  · exact .inl ⟨_, step_inReset hr⟩
  obtain hp | ⟨w, hp⟩ := Option.eq_none_or_eq_some s.pending
  · cases hq : s.port with
    | nil => exact .inl ⟨_, step_idle hr hp hq⟩
    | cons a rest =>
      rw [step_performs hr hp hq]
      obtain ho | ⟨off, ho⟩ := Option.eq_none_or_eq_some (windowOffset s.params a)
      · exact .inr ⟨hr, hp, a, rest, rfl, performAccess_rejected ho⟩
      · exact .inl ⟨_, performAccess_ok ho⟩
  · by_cases hb : s.busyLeft = 0
    · obtain ⟨t, ht, -⟩ := step_completes hr hp hb
      exact .inl ⟨t, ht⟩
    · exact .inl ⟨_, step_busy hr hp hb⟩

end Sys2Proof.Machine

open Sys2Proof Sys2Proof.Machine

/-- Settles O30: of a step's activities only reset and a completing FINAL write DIGEST. -/
theorem onlyFinalWritesTheDigest : Obligations.OnlyFinalWritesTheDigest := by
  intro s t h hne
  cases step_cases h with
  | inReset hr => exact .inl ⟨hr, fun k => by rw [applyReset_digest]; simp⟩
  | waits => exact absurd (busyWait_digest s) hne
  | completes _ hp _ hd hx =>
    obtain ⟨n, rfl, hn, hf, herr, hdigest⟩ := exec_digest_ne hx hne
    exact .inr ⟨n, encode_of_decode hd ▸ hp, hn, hf, herr, fun k => hdigest ▸ getElem_digestOfChain _ k.val k.isLt⟩
  | rejects => exact absurd (complete_digest _ s) hne
  | performs => exact absurd (accessWindow_digest ..) hne
  | idle => exact absurd rfl hne

/-- Settles O31: of a step's activities only reset and the access that reaches DATA_IN write it. -/
theorem onlyTheHostWritesDataIn : Obligations.OnlyTheHostWritesDataIn := by
  intro s t h hne
  cases step_cases h with
  | inReset hr => exact .inl ⟨hr, rfl⟩
  | waits => exact absurd (busyWait_dataIn s) hne
  | completes _ _ _ _ hx => exact absurd (by rw [exec_frame hx]) hne
  | rejects => exact absurd (complete_dataIn _ s) hne
  | @performs a rest off hr hp hq ho =>
    obtain ⟨_, he⟩ | ⟨_, he⟩ | ⟨v, hop, hreg, he⟩ := accessWindow_cases off a.op { s with port := rest }
    all_goals rw [he] at hne ⊢
    · exact absurd rfl hne
    · exact absurd rfl hne
    · have ha : a = hostWrite s.params 0x10 v := eq_of_reaches hop ho hreg (by decide)
      exact .inr ⟨hr, hp, rest, hq.trans (by rw [ha]; rfl)⟩
  | idle => exact absurd rfl hne

/-- Settles O32: of a step's activities only reset and a completion write STATUS.ERR. -/
theorem onlyCompletionWritesErr : Obligations.OnlyCompletionWritesErr := by
  intro s t h hne
  cases step_cases h with
  | inReset hr => exact .inl ⟨hr, rfl⟩
  | waits => exact absurd (busyWait_err s) hne
  | completes hr hp hb _ hx => exact .inr ⟨hr, by simp [hp], hb, by rw [exec_frame hx]⟩
  | rejects hr hp hb => exact .inr ⟨hr, by simp [hp], hb, rfl⟩
  | performs => exact absurd (accessWindow_err ..) hne
  | idle => exact absurd rfl hne

/-- Settles O39: a step goes on or stops at the head access's bus error. -/
theorem onlyBusErrorsStopTheMachine : Obligations.OnlyBusErrorsStopTheMachine := by
  refine ⟨fun s r hs => ?_, fun s f hs => ?_⟩
  · obtain ⟨t, ht⟩ | ⟨-, -, a, rest, -, hfault⟩ := step_next_or_busError s
    · rw [ht] at hs
      cases hs
    · rw [hfault] at hs
      cases hs
  · obtain ⟨t, ht⟩ | ⟨hr, hp, a, rest, hq, hfault⟩ := step_next_or_busError s
    · rw [ht] at hs
      cases hs
    · rw [hfault] at hs
      cases hs
      exact ⟨hr, hp, a, rest, hq, rfl⟩

/-- Settles O26: the step by what the word decodes to, and the frame of a completion. -/
theorem stepRunsTheDecodedCommand : Obligations.StepRunsTheDecodedCommand := by
  intro s w hr hp hb
  obtain ⟨t, ht, hframe⟩ := step_completes hr hp hb
  refine ⟨fun i hd => step_completes_legal hr hp hb hd, fun e hd => step_completes_illegal hr hp hb hd, t, ht, ?_⟩
  rw [hframe]
  exact ⟨rfl, rfl, rfl, rfl, rfl, rfl⟩

end

section
/-! PROOF of the control registers as the host sees them, and of reset (spec 10_state.md R29, R30, R35, R36;
70_reset_and_hazards.md R210, R213). -/

namespace Sys2Proof.Machine

/-- R41: what `applyReset` leaves. -/
theorem holdsResetValues_applyReset (s : State) : holdsResetValues (applyReset s) := ⟨rfl, rfl, rfl, rfl, rfl⟩

end Sys2Proof.Machine

open Sys2Proof Sys2Proof.Machine

/-- Settles O37: each register's offset is a slot of the window, so it reads what the map gives it; of these
registers only CMD and DATA_IN are written. -/
theorem controlRegistersReadAndWrite : Obligations.ControlRegistersReadAndWrite := by
  refine ⟨readsAs_regAt (off := 0x00) rfl (by decide), readsAs_regAt (off := 0x08) rfl (by decide),
    ignoresWrites_of_regAt rfl (by decide) (by decide) (by decide), readsAs_regAt (off := 0x10) rfl (by decide),
    fun k => ?_, fun s v rest hs hq => step_hostWrite hs.1 hs.2.1 hq rfl (by decide)⟩
  obtain ⟨h8, hin⟩ := digest_offset_aligned k
  have hread := readsAs_regAt h8 hin
  rw [regAt_digest] at hread
  exact ⟨hread, ignoresWrites_of_regAt h8 hin ((regAt_digest k).trans_ne nofun) ((regAt_digest k).trans_ne nofun)⟩

/-- Settles O40: the write performs the acceptance of its word, which writes only the pending command and the
model's counters. -/
theorem cmdWriteIsAccepted : Obligations.CmdWriteIsAccepted := by
  intro s w rest ⟨hr, hp, _⟩ hq
  exact ⟨_, step_hostWrite hr hp hq rfl (by decide), rfl, rfl, ⟨rfl, rfl, rfl, rfl, rfl⟩, rfl, rfl, hr⟩

/-- Settles O11: each of the three applies the reset values. -/
theorem resetOverridesEverything : Obligations.ResetOverridesEverything := by
  refine ⟨fun s hr => ⟨_, step_inReset hr, holdsResetValues_applyReset s, hr⟩, fun s hr => ?_, fun s hr => ?_,
    fun s a hr => if_pos hr⟩
  · rw [assertReset, hr]
    exact ⟨⟨rfl, rfl, rfl, rfl, rfl⟩, rfl⟩
  · rw [releaseReset, hr]
    exact ⟨⟨rfl, rfl, rfl, rfl, rfl⟩, rfl⟩

end

section
/-! PROOF of the BUSY interval: what it answers and holds, and that it ends (spec 20_memory.md R62, R63;
30_encoding.md R76; 70_reset_and_hazards.md R213, R216). -/

namespace Sys2Proof.Machine

/-! R213(c): the STATUS reads. -/

/-- R12, R51: the reads of STATUS. -/
theorem isStatusRead_iff {p : Params} {a : BusAccess} : isStatusRead p a = true ↔ a = hostRead p 0x08 := by
  constructor
  · intro h
    simp only [isStatusRead, Bool.and_eq_true, decide_eq_true_eq, Option.map_eq_some_iff] at h
    obtain ⟨hop, off, ho, hreg⟩ := h
    exact eq_of_reaches hop ho hreg (by decide)
  · rintro rfl
    have ho : windowOffset p (hostRead p 0x08) = some 0x08 := windowOffset_hostRead p rfl (by decide)
    simp only [isStatusRead, ho]
    rfl

/-- R213(c): a STATUS read at the port's head is answered. -/
theorem busyWait_of_statusRead {s : State} {rest : List BusAccess} (hq : s.port = hostRead s.params 0x08 :: rest) :
    busyWait s = answerStatusWhileBusy { s with busyLeft := s.busyLeft - 1, port := rest } := by
  simp [busyWait, hq, isStatusRead_iff.2]

/-- R213: any other access at the head is held. -/
theorem busyWait_of_held {s : State} (hq : ∀ rest, s.port ≠ hostRead s.params 0x08 :: rest) :
    busyWait s = { s with busyLeft := s.busyLeft - 1 } := by
  cases hport : s.port with
  | nil => simp [busyWait, hport]
  | cons a rest =>
    have ha : ¬ isStatusRead s.params a = true := fun h => hq rest (isStatusRead_iff.1 h ▸ hport)
    simp [busyWait, hport, ha]

/-- R213(c): the answer's bit 0 is 1. -/
theorem getLsbD_statusWhileBusy (e n : Nat) : (statusWhileBusy e n).getLsbD 0 = true := by
  rw [statusWhileBusy, BitVec.getLsbD_append]
  rfl

/-! R216: the interval ends, and the command has the effect it would have had at once. -/

theorem sameEngine.refl (s : State) : sameEngine s s := ⟨rfl, rfl, rfl, rfl, rfl⟩

theorem sameEngine.symm {s t : State} (h : sameEngine s t) : sameEngine t s :=
  ⟨h.params.symm, h.hash.symm, h.err.symm, h.dataIn.symm, h.digest.symm⟩

theorem sameEngine.trans {s t u : State} (a : sameEngine s t) (b : sameEngine t u) : sameEngine s u :=
  ⟨a.params.trans b.params, a.hash.trans b.hash, a.err.trans b.err, a.dataIn.trans b.dataIn,
    a.digest.trans b.digest⟩

/-- R213: the state in which the pending word `w` completes in the next step. -/
structure dueTo (w : Word) (s : State) : Prop where
  resetIn : s.resetIn = false
  pending : s.pending = some w
  busyLeft : s.busyLeft = 0

/-- R14: a word completes alike from states that agree in the engine. -/
theorem dueTo.step_sameEngine {w : Word} {s t : State} (hs : dueTo w s) (ht : dueTo w t) (h : sameEngine s t) :
    ∃ s' t', step s = .next s' ∧ step t = .next t' ∧ s'.pending = none ∧ sameEngine s' t' := by
  obtain ⟨hsr, hsp, hsb⟩ := hs
  obtain ⟨htr, htp, htb⟩ := ht
  cases hd : decode w with
  | ok i =>
    obtain ⟨s', t', hs', ht', hsame⟩ := commandsAreDeterministic i s t h
    exact ⟨s', t', (step_completes_legal hsr hsp hsb hd).trans hs', (step_completes_legal htr htp htb hd).trans ht',
      by rw [exec_frame hs'], hsame⟩
  | error e =>
    exact ⟨_, _, step_completes_illegal hsr hsp hsb hd, step_completes_illegal htr htp htb hd, rfl,
      complete_sameEngine h _⟩

/-- R213, R216: the waiting ends whatever the port holds, and changes no engine state. -/
theorem run_until_due {s : State} {w : Word} {n : Nat} (hr : s.resetIn = false) (hp : s.pending = some w)
    (hn : s.busyLeft = n) :
    ∃ t, Host.Core.run Sys2Proof.core n s = .next t ∧ dueTo w t ∧ sameEngine s t := by
  induction n generalizing s with
  | zero => exact ⟨s, rfl, ⟨hr, hp, hn⟩, .refl s⟩
  | succ n ih =>
    obtain ⟨t, hrun, hdue, hsame⟩ := ih (s := busyWait s) ((busyWait_resetIn s).trans hr)
      ((busyWait_pending s).trans hp) (by rw [busyWait_busyLeft, hn]; rfl)
    exact ⟨t, (run_succ_of_next (step_busy hr hp (by omega)) n).trans hrun, hdue, (busyWait_sameEngine s).trans hsame⟩

/-! R76: the actions of the POLL loop. -/

/-- R76: from `s` the loop, with a read presented or not, ends by seeing BUSY = 0. -/
def pollEnds (asked : Bool) (s : State) : Prop :=
  ∃ n t, poll n asked s = .next (true, t) ∧ t.pending = none ∧ t.port = []

/-- The loop puts its read behind the waiting accesses. -/
theorem pollEnds.of_present {s : State} (hr : s.resetIn = false)
    (h : pollEnds true { s with port := s.port ++ [rd s.params .status] }) : pollEnds false s := by
  obtain ⟨n, t, hpoll, hend⟩ := h
  exact ⟨n + 1, t, by simpa [poll, presentAccess, hr] using hpoll, hend⟩

/-- The engine takes a step while an access waits. -/
theorem pollEnds.of_step {s t : State} (hq : s.port ≠ []) (h : step s = .next t) (ht : pollEnds true t) :
    pollEnds true s := by
  obtain ⟨n, u, hpoll, hend⟩ := ht
  exact ⟨n + 1, u, by simpa [poll, hq, h] using hpoll, hend⟩

/-- An answer with BUSY = 1 starts the loop again. -/
theorem pollEnds.of_unseen {s : State} (hq : s.port = []) (hseen : lastReadNotBusy s = false)
    (h : pollEnds false s) : pollEnds true s := by
  obtain ⟨n, t, hpoll, hend⟩ := h
  exact ⟨n + 1, t, by simpa [poll, hq, hseen] using hpoll, hend⟩

/-- An answer with BUSY = 0 ends it. -/
theorem pollEnds.of_seen {s : State} (hq : s.port = []) (hseen : lastReadNotBusy s = true)
    (hp : s.pending = none) : pollEnds true s :=
  ⟨1, s, by simp [poll, hq, hseen], hp, hq⟩

/-- R31: the loop judges bit 0 of the newest answer. -/
theorem lastReadNotBusy_respond (v : Word) (s : State) :
    lastReadNotBusy (respond (.data v) s) = !v.getLsbD 0 := rfl

/-- R30, R31: STATUS's bit 0 is BUSY. -/
theorem getLsbD_statusWord (s : State) : (statusWord s).getLsbD 0 = busy s := by
  rw [statusWord, packStatus, BitVec.getLsbD_append]
  cases busy s <;> rfl

/-- R76: with no command in progress the read is answered with BUSY = 0. -/
theorem pollEnds_of_idle {s : State} (hr : s.resetIn = false) (hp : s.pending = none)
    (hq : s.port = [rd s.params .status]) : pollEnds true s := by
  have hidle : busy s = false := by simp [busy, hp]
  refine .of_step (by simp [hq]) (step_hostRead hr hp hq rfl (by decide)) (.of_seen rfl ?_ hp)
  rw [lastReadNotBusy_respond, readReg_port]
  exact congrArg not ((getLsbD_statusWord s).trans hidle)

/-- R63, R216: with a command in progress each answer has BUSY = 1 until the command completes. -/
theorem pollEnds_of_pending {s : State} {w : Word} {k : Nat} (hr : s.resetIn = false) (hp : s.pending = some w)
    (hk : s.busyLeft = k) (hq : s.port = [rd s.params .status]) : pollEnds true s := by
  have hwaits : s.port ≠ [] := by simp [hq]
  induction k generalizing s with
  | zero =>
    obtain ⟨t, ht, hframe⟩ := step_completes hr hp hk
    refine .of_step hwaits ht ?_
    rw [hframe]
    exact pollEnds_of_idle hr rfl hq
  | succ k ih =>
    have hleft : s.busyLeft - 1 = k := by rw [hk]; rfl
    refine .of_step hwaits (step_busy hr hp (by omega)) ?_
    rw [busyWait_of_statusRead hq]
    refine .of_unseen rfl ?_ (.of_present hr (ih hr hp hleft rfl (List.cons_ne_nil _ _)))
    rw [answerStatusWhileBusy, lastReadNotBusy_respond, getLsbD_statusWhileBusy]
    rfl

end Sys2Proof.Machine

open Sys2Proof Sys2Proof.Machine

/-- Settles O41: the head access is answered or held, by whether it is a STATUS read. -/
theorem busyHoldsEveryAccessButStatusReads : Obligations.BusyHoldsEveryAccessButStatusReads := by
  intro s w hr hp hb
  refine ⟨busyWait s, step_busy hr hp hb, busyWait_sameEngine s, (busyWait_pending s).trans hp,
    (busyWait_resetIn s).trans hr, busyWait_busyLeft s, fun rest hq => ?_, fun hq => ?_⟩
  · rw [busyWait_of_statusRead hq]
    exact ⟨rfl, _, getLsbD_statusWhileBusy _ _, rfl⟩
  · rw [busyWait_of_held hq]
    exact ⟨rfl, rfl⟩

/-- Settles O42: the waiting leaves a state that agrees in the engine with the one it began in, and the word
completes alike from both. -/
theorem everyCommandCompletes : Obligations.EveryCommandCompletes := by
  intro s w hr hp
  obtain ⟨v, hrun, hdue, hsame⟩ := run_until_due hr hp rfl
  have hnow : sameEngine v { s with busyLeft := 0 } := hsame.symm.trans ⟨rfl, rfl, rfl, rfl, rfl⟩
  obtain ⟨t, u, ht, hu, hnone, htu⟩ := hdue.step_sameEngine (t := { s with busyLeft := 0 }) ⟨hr, hp, rfl⟩ hnow
  exact ⟨t, u, (run_add hrun 1).trans (run_succ_of_next ht 0), hnone, hu, htu⟩

/-- Settles O43: the loop presents its read, and then by whether a command is in progress. -/
theorem pollEndsWithNoCommandInProgress : Obligations.PollEndsWithNoCommandInProgress := by
  intro s hr hq
  apply pollEnds.of_present hr
  rw [hq]
  obtain hp | ⟨w, hp⟩ := Option.eq_none_or_eq_some s.pending
  · exact pollEnds_of_idle hr hp rfl
  · exact pollEnds_of_pending hr hp rfl rfl

end

section
/-! PROOF that the commands compute the digest of the absorbed bytes (spec 42_streaming.md R143, R145, R148,
R149). -/

namespace Sys2Proof.Machine

/-! R151: a run of ABSORBs is one update per command. -/

/-- The pieces of the message that such a run hands to Update. -/
def operandPieces (ops : List (Word × BitVec 8)) : List (List Byte) := ops.map fun o => operandBytes o.2 o.1

theorem flatten_operandPieces (ops : List (Word × BitVec 8)) : (operandPieces ops).flatten = absorbedBytes ops := rfl

theorem absorbAll_eq_next {ops : List (Word × BitVec 8)} {s : State} (hops : ∀ o ∈ ops, o.2.toNat ≤ 8)
    (hf : s.hash.f0 = 0) :
    ∃ t, absorbAll ops s = .next t ∧ t.hash = updateAll (operandPieces ops) s.hash ∧ t.params = s.params := by
  induction ops generalizing s with
  | nil => exact ⟨s, rfl, rfl, rfl⟩
  | cons o ops ih =>
    obtain ⟨d, len⟩ := o
    obtain ⟨hlen, hops⟩ := List.forall_mem_cons.1 hops
    have hexec := execAbsorb_ok (s := { s with dataIn := d }) hlen hf
    rw [absorbAll, exec_absorb, hexec]
    exact ih hops ((update_flags _ _).1.trans hf)

/-! R145: finalization after the updates of any chunking of a message. -/

/-- R140, R143, R145: the counter ends at the number of bytes. -/
theorem counter_finalize_updateAll (mode : LastNodeMode) (pieces : List (List Byte)) :
    counter (finalize mode (updateAll pieces HashState.initial)) = pieces.flatten.length % 2 ^ 128 := by
  obtain ⟨hcount, hlen, -⟩ := streamStateAfterUpdates pieces
  have hblocks : wholeBlocksBefore pieces.flatten.length = (pieces.flatten.length - 1) / 128 := rfl
  rw [counter_finalize, updateAll, hcount, hlen, Nat.mod_add_mod]
  congr 1
  omega

/-- R143, R145: H ends at the chaining value after the last block of the message. -/
theorem finalize_updateAll_initial_h (mode : LastNodeMode) (pieces : List (List Byte)) :
    (finalize mode (updateAll pieces HashState.initial)).h = finalChain mode pieces.flatten := by
  obtain ⟨-, -, hvalid, hh, -, -⟩ := streamStateAfterUpdates pieces
  have hsorted := (updateAll_wf (x := HashState.initial) Memory.wf_nil pieces).1
  obtain ⟨ht0, ht1⟩ := (counter_eq_mod_iff _ _).1 (counter_finalize_updateAll mode pieces)
  have hlast : bufBlock (bufPad (updateAll pieces HashState.initial).bufLen (updateAll pieces HashState.initial).buf) =
      lastBlock pieces.flatten := by
    rw [bufBlock_bufPad hsorted, ← validBytes_length, updateAll, hvalid]
    rfl
  rw [finalize_t0] at ht0
  rw [finalize_t1] at ht1
  rw [finalize_h, ht0, ht1, hlast, updateAll, hh]
  rfl

/-- R148: so the digest words are those of the message alone. -/
theorem digestWords_finalize_updateAll (mode : LastNodeMode) (pieces : List (List Byte)) :
    digestWords (finalize mode (updateAll pieces HashState.initial)) = messageDigest mode pieces.flatten := by
  rw [digestWords, finalize_updateAll_initial_h, messageDigest]

/-! R148: the digest's bytes. -/

/-- R10: byte `j` of a sequence of words, eight bytes each. -/
theorem getElem?_flatMap_store64le (ws : List Word) (j : Nat) :
    (ws.flatMap store64le)[j]? = ws[j / 8]?.map fun w => byteOf w (j % 8) := by
  induction ws generalizing j with
  | nil => rfl
  | cons w ws ih =>
    rw [List.flatMap_cons]
    by_cases hj : j < 8
    · have hin : j < (store64le w).length := by simpa using hj
      rw [List.getElem?_append_left hin, List.getElem?_eq_getElem hin, getElem_store64le, Nat.div_eq_of_lt hj,
        Nat.mod_eq_of_lt hj]
      rfl
    · obtain ⟨k, rfl⟩ : ∃ k, j = k + 8 := ⟨j - 8, by omega⟩
      rw [List.getElem?_append_right (by simp), store64le_length, Nat.add_sub_cancel, ih, Nat.add_mod_right,
        Nat.add_div_right k (by decide), List.getElem?_cons_succ]

/-- R148: byte `j` of the digest. -/
theorem getElem?_digestBytes (d : Vector Word 4) {j : Nat} (hj : j < 32) :
    (digestBytes d)[j]? = some (byteOf (d[j / 8]'(by omega)) (j % 8)) := by
  have hin : j / 8 < d.toList.length := by rw [Vector.length_toList]; omega
  rw [digestBytes, getElem?_flatMap_store64le, List.getElem?_eq_getElem hin, Vector.getElem_toList]
  rfl

end Sys2Proof.Machine

open Sys2Proof Sys2Proof.Machine

/-- Settles O48: INIT loads the initial hash state, the ABSORBs update it with their operand bytes, and FINAL
finalizes it. -/
theorem commandsComputeTheDigest : Obligations.CommandsComputeTheDigest := by
  intro s ops n hops hn
  let t := complete .ok (initState s)
  obtain ⟨u, hu, hhash, hparams⟩ := absorbAll_eq_next (s := t) hops initial_f0
  have hmode : u.params.lastNodeMode = s.params.lastNodeMode := congrArg Params.lastNodeMode hparams
  have hfinal := execFinal_ok (s := u) hn (by rw [hhash]; exact (updateAll_f0 _ _).trans initial_f0)
  rw [hmode, hhash] at hfinal
  rw [← flatten_operandPieces]
  refine ⟨t, u, _, execInit_eq s, hu, hfinal, rfl, phase_eq_final ?_, ?_, ?_, ?_, fun j =>
    getElem?_digestBytes _ j.isLt⟩
  · rw [complete_hash, finalize_f0]
    decide
  · exact counter_finalize_updateAll _ (operandPieces ops)
  · exact digestWords_finalize_updateAll _ (operandPieces ops)
  · exact digestWords_updateAll _ (operandPieces ops)

end

section
/-! PROOF that several engines share nothing and keep their windows (spec 60_exceptions.md R190). -/

namespace Sys2Proof.Machine

/-- R190: an event leaves the number of engines as it was. -/
theorem reactAt_length {k : Nat} {e : Event} {es es' : Engines} (h : reactAt k e es = some (.next es')) :
    es'.length = es.length := by
  obtain ⟨_, t, -, -, rfl⟩ := reactAt_eq_next.1 h
  exact List.length_set

/-- R190: and every engine but its own. -/
theorem reactAt_getElem?_of_ne {k j : Nat} {e : Event} {es es' : Engines} (h : reactAt k e es = some (.next es'))
    (hne : j ≠ k) : es'[j]? = es[j]? := by
  obtain ⟨_, t, -, -, rfl⟩ := reactAt_eq_next.1 h
  exact List.getElem?_set_ne hne.symm

/-- R190: its own engine takes the event. -/
theorem reactAt_getElem?_self {k : Nat} {e : Event} {es es' : Engines} {s : State}
    (h : reactAt k e es = some (.next es')) (hs : es[k]? = some s) :
    ∃ t, react e s = .next t ∧ es'[k]? = some t := by
  obtain ⟨s', t, hs', ht, rfl⟩ := reactAt_eq_next.1 h
  cases hs.symm.trans hs'
  obtain ⟨hk, -⟩ := List.getElem?_eq_some_iff.1 hs
  exact ⟨t, ht, List.getElem?_set_self hk⟩

/-- R190: under any interleaving the number of engines stays. -/
theorem runAll_length {evs : List (Nat × Event)} {es es' : Engines} (h : runAll evs es = some (.next es')) :
    es'.length = es.length := by
  induction evs generalizing es with
  | nil => cases h; rfl
  | cons ev evs ih =>
    obtain ⟨es1, hfirst, hrest⟩ := runAll_cons.1 h
    exact (ih hrest).trans (reactAt_length hfirst)

/-- R190: and each engine runs its own events. -/
theorem runAll_getElem? {evs : List (Nat × Event)} {es es' : Engines} {j : Nat} {s : State}
    (h : runAll evs es = some (.next es')) (hs : es[j]? = some s) :
    ∃ t, runEvents (eventsOf j evs) s = .next t ∧ es'[j]? = some t := by
  induction evs generalizing es s with
  | nil => cases h; exact ⟨s, rfl, hs⟩
  | cons ev evs ih =>
    obtain ⟨es1, hfirst, hrest⟩ := runAll_cons.1 h
    rw [eventsOf_cons]
    by_cases hj : ev.1 = j
    · subst hj
      obtain ⟨s1, hreact, hs1⟩ := reactAt_getElem?_self hfirst hs
      obtain ⟨t, hrun, ht⟩ := ih hrest hs1
      exact ⟨t, by rw [if_pos rfl]; exact runEvents_cons.2 ⟨s1, hreact, hrun⟩, ht⟩
    · rw [if_neg hj]
      exact ih hrest ((reactAt_getElem?_of_ne hfirst (Ne.symm hj)).trans hs)

/-- R190: a run of an engine's own events from a reachable state ends in one. -/
theorem Reachable.runEvents {p : Params} {evs : List Event} {s t : State} (hs : Reachable p s)
    (h : runEvents evs s = .next t) : Reachable p t := by
  induction evs generalizing s with
  | nil => cases h; exact hs
  | cons e evs ih =>
    obtain ⟨s1, hreact, hrest⟩ := runEvents_cons.1 h
    exact ih (.react s s1 e hs hreact) hrest

/-- R190, R41: the engine placed at `k` is, after any events, in a state it could reach alone from reset. -/
theorem runAll_reset_getElem? {ps : List Placement} {evs : List (Nat × Event)} {es : Engines} {k : Nat}
    {p : Placement} (h : runAll evs (Engines.reset ps) = some (.next es)) (hp : ps[k]? = some p) :
    ∃ s, es[k]? = some s ∧ Reachable (p.params k) s := by
  obtain ⟨s, hrun, hs⟩ := runAll_getElem? h (engines_reset_getElem? hp)
  exact ⟨s, hs, Reachable.reset.runEvents hrun⟩

/-- R6, R190: the engine at `k` has the window it was placed at. -/
theorem runAll_reset_windowIndex {ps : List Placement} {evs : List (Nat × Event)} {es : Engines} {k : Nat}
    {s : State} (h : runAll evs (Engines.reset ps) = some (.next es)) (hs : es[k]? = some s) :
    (ps.map Placement.windowIndex)[k]? = some s.params.windowIndex := by
  obtain ⟨hk, -⟩ := List.getElem?_eq_some_iff.1 hs
  rw [runAll_length h, engines_reset_length] at hk
  have hp := List.getElem?_eq_getElem hk
  obtain ⟨t, ht, hreach⟩ := runAll_reset_getElem? h hp
  cases hs.symm.trans ht
  rw [List.getElem?_map, hp, hreach.inv.2]
  rfl

end Sys2Proof.Machine

open Sys2Proof Sys2Proof.Machine

/-- Settles O47: the family of the result is the old one with the engine's own entry replaced. -/
theorem instancesShareNothing : Obligations.InstancesShareNothing :=
  fun _ _ _ _ _ h hne => ⟨reactAt_getElem?_of_ne h hne, reactAt_length h⟩

/-- Settles O51, by induction on the events. -/
theorem instancesRunIndependently : Obligations.InstancesRunIndependently :=
  fun _ _ _ h => ⟨runAll_length h, fun _ _ hs => runAll_getElem? h hs⟩

/-- Settles O52: each engine's own run starts in reset and keeps its parameters, so an access inside two windows
is at one window index, at which only one engine is placed. -/
theorem enginesStartInResetAndKeepTheirWindows : Obligations.EnginesStartInResetAndKeepTheirWindows := by
  intro ps evs es h
  refine ⟨fun k p hp => ?_, fun hnodup j k s t a hs ht hsa hta => ?_⟩
  · obtain ⟨s, hs, hreach⟩ := runAll_reset_getElem? h hp
    exact ⟨s, hs, hreach, hreach.inv⟩
  · have hj := runAll_reset_windowIndex h hs
    have hk := runAll_reset_windowIndex h ht
    rw [← windowIndex_of_windowOffset hsa] at hj
    rw [← windowIndex_of_windowOffset hta] at hk
    obtain ⟨hlt, -⟩ := List.getElem?_eq_some_iff.1 hj
    exact (List.getElem?_inj hlt hnodup).1 (hj.trans hk.symm)

end
